-- ==== Sys2Proof/Word.lean ====
section
/-! DEFINITION. Plain word arithmetic: the ceiling logarithm from which the widths of the configuration ports are made. -/

namespace Sys2Proof

/-- R7 (00_scope.md): `clog2(n)` "is the least k >= 0 with 2^k >= n". -/
def clog2 (n : Nat) : Nat :=
  if n ≤ 1 then 0 else Nat.log2 (n - 1) + 1

end Sys2Proof
end

