-- ==== Sys2Proof/Config.lean ====
section
/-! DEFINITION. What one fp_unpack part fixes: its two width limits, the port widths they give, the ports themselves,
and the values the spec leaves to be drawn freely. -/

namespace Sys2Proof

/-- R6 (00_scope.md), R26 (10_state.md): the implementation parameters, `EXP_W_MAX >= 1` and `MAN_W_MAX`. -/
structure Params where
  /-- `EXP_W_MAX`, the largest exponent width the block decodes. -/
  expWMax : Nat
  /-- `MAN_W_MAX`, the largest mantissa width the block decodes. -/
  manWMax : Nat
  expWMax_pos : 1 ≤ expWMax
  deriving DecidableEq, Repr

namespace Params

/-- R6: the reference part, `EXP_W_MAX = 8` and `MAN_W_MAX = 23`. -/
def reference : Params := ⟨8, 23, by decide⟩

/-- R7: `W`, the width of the pattern bus. -/
abbrev w (P : Params) : Nat := 1 + P.expWMax + P.manWMax

/-- R7: `EBW`, the width of the exponent-width field. -/
abbrev ebw (P : Params) : Nat := clog2 (P.expWMax + 1)

/-- R7: `MBW`, the width of the mantissa-width field, "and at least 1". -/
abbrev mbw (P : Params) : Nat := max 1 (clog2 (P.manWMax + 1))

/-- R7: `SIGW`, the width of the significand output. -/
abbrev sigw (P : Params) : Nat := P.manWMax + 1

/-- R7: `EXPW`, the width of the two's-complement exponent output. -/
abbrev expw (P : Params) : Nat := P.expWMax + 1

/-- R40 (30_encoding.md): the width of the packed input word `IN`, `1 + 2 + EBW + MBW + W`. -/
abbrev inw (P : Params) : Nat := 1 + 2 + P.ebw + P.mbw + P.w

end Params

/-- R7: `SBW`, the width of the sign-width field. -/
abbrev sbw : Nat := 2

/-- R12, R26 (10_state.md): the levels of the input ports. -/
structure Inputs (P : Params) where
  /-- The bit pattern, right-aligned (R29). -/
  pat : BitVec P.w
  /-- The sign width s (R13). -/
  cfgSignBits : BitVec sbw
  /-- The exponent width e (R13). -/
  cfgExpBits : BitVec P.ebw
  /-- The mantissa width m (R13). -/
  cfgManBits : BitVec P.mbw
  /-- The denormal exponent mode: false = reference, true = IEEE (R14). -/
  denormIeee : Bool
  deriving DecidableEq, Repr, Inhabited

/-- R15 (10_state.md): the levels of the output ports. A port one bit wide is a `Bool`. -/
structure Outputs (P : Params) where
  /-- R16: 0b00 no error, 0b01 InvalidFormat, 0b10 InvalidPattern. -/
  err : BitVec 2
  isZero : Bool
  isSubnormal : Bool
  isNormal : Bool
  isInf : Bool
  isNan : Bool
  /-- R18: true = negative. -/
  sign : Bool
  /-- R19: the significand times 2^m. -/
  sig : BitVec P.sigw
  /-- R20: the exponent, two's complement. -/
  exp : BitVec P.expw
  /-- R21: the raw sign field S. -/
  fSign : Bool
  /-- R21: the raw exponent field E, zero-extended. -/
  fExp : BitVec P.expWMax
  /-- R21: the raw mantissa field F, zero-extended. -/
  fMan : BitVec P.manWMax
  deriving DecidableEq, Repr, Inhabited

/-- The input set whose every bit is `b`: as a mask of floating bits (R92), all of them or none. -/
def Inputs.mask (P : Params) (b : Bool) : Inputs P :=
  let fill (n : Nat) : BitVec n := bif b then BitVec.allOnes n else 0#n
  ⟨fill _, fill _, fill _, fill _, b⟩

namespace Config

/-- R92, R94 (70_reset_and_hazards.md): what the output ports hold while they may hold "any value": one free draw for
each number. Nothing constrains it. -/
opaque freeOutputs (P : Params) : Nat → Outputs P

/-- R92: "An undriven or unknown input bit is likewise a free draw": the levels undriven input bits take, one free
draw for each number. Nothing constrains it. -/
opaque freeInputs (P : Params) : Nat → Inputs P

end Config

end Sys2Proof
end

