-- ==== Sys2Proof/Syntax.lean ====
section
/-! DEFINITION. The transactions of fp_unpack: one constructor for each row of spec/opcode_table.json.

Operand names are the spec's: `s`, `e`, `m` are the configured widths (R13), `ieee` is the level of `denorm_ieee`
(R14), `pat` is the level of the pattern bus, and `S`, `E`, `F` are the fields of a pattern (R35). -/

namespace Sys2Proof

inductive Instr where
  /-- FORMAT_CHECK, R51 (40_format_spec.md), R98 (70_reset_and_hazards.md): select a format and the denormal mode. Reference
  mode "is the value the host drives when it has no reason to choose" (R14), as `DEC` without `.ieee` does (R48). -/
  | formatCheck (s e m : Nat) (ieee : Bool := false)
  /-- DECODE, R60 (41_decode.md): the whole operation, `DEC (s,e,m)[.ieee] pat`. -/
  | decode (s e m : Nat) (ieee : Bool) (pat : Nat)
  /-- ZERO, R62 and R69: a pattern `S 0...0 0...0`. -/
  | zero (e m : Nat) (ieee S : Bool)
  /-- SUBNORMAL_REF, R67: a pattern `S 0...0 F...F` with F != 0 in reference mode. -/
  | subnormalRef (e m : Nat) (S : Bool) (F : Nat)
  /-- SUBNORMAL_IEEE, R68: a pattern `S 0...0 F...F` with F != 0 in IEEE mode. -/
  | subnormalIeee (e m : Nat) (S : Bool) (F : Nat)
  /-- NORMAL, R66: a pattern `S E...E F...F` with E neither all zeros nor all ones. -/
  | normal (e m : Nat) (ieee S : Bool) (E F : Nat)
  /-- INF_POS, R64: the pattern `0 1...1 0...0`. -/
  | infPos (e m : Nat) (ieee : Bool)
  /-- INF_NEG, R64: the pattern `1 1...1 0...0`. -/
  | infNeg (e m : Nat) (ieee : Bool)
  /-- NAN, R65: a pattern `S 1...1 F...F` with F != 0. -/
  | nan (e m : Nat) (ieee S : Bool) (F : Nat)
  /-- INVALID_FORMAT, R81 (60_exceptions.md): a configuration that spells no format. -/
  | invalidFormat (s e m : Nat) (ieee : Bool) (pat : Nat)
  /-- INVALID_PATTERN, R82: a valid configuration and a pattern with a 1 bit above position T-1. -/
  | invalidPattern (e m : Nat) (ieee : Bool) (pat : Nat)
  /-- E8M23, R49 (30_encoding.md): `DEC E8M23[.ieee] pat`. -/
  | e8m23 (ieee : Bool) (pat : Nat)
  /-- E8M7, R49: `DEC E8M7[.ieee] pat`. -/
  | e8m7 (ieee : Bool) (pat : Nat)
  /-- E5M10, R49: `DEC E5M10[.ieee] pat`. -/
  | e5m10 (ieee : Bool) (pat : Nat)
  /-- E4M3, R49: `DEC E4M3[.ieee] pat`. -/
  | e4m3 (ieee : Bool) (pat : Nat)
  /-- E5M2, R49: `DEC E5M2[.ieee] pat`. -/
  | e5m2 (ieee : Bool) (pat : Nat)
  /-- E2M1, R49: `DEC E2M1[.ieee] pat`. -/
  | e2m1 (ieee : Bool) (pat : Nat)
  deriving DecidableEq, Repr

end Sys2Proof
end

