-- ==== Sys2Proof/WellFormed.lean ====
section
/-! DEFINITION. When a transaction is one that the ports of a part can carry, and one of the row it names. -/

namespace Sys2Proof

/-- R39 (30_encoding.md): the widths `(1, e, m)` are legal on this part. -/
def Params.legal (P : Params) (e m : Nat) : Bool :=
  decide (1 ≤ e) && decide (e ≤ P.expWMax) && decide (m ≤ P.manWMax)

/-- R12 (10_state.md): each configuration value fits its port. -/
def Params.cfgFits (P : Params) (s e m : Nat) : Bool :=
  decide (s < 2 ^ sbw) && decide (e < 2 ^ P.ebw) && decide (m < 2 ^ P.mbw)

/-- R12: the pattern fits the bus. -/
def Params.patFits (P : Params) (pat : Nat) : Bool :=
  decide (pat < 2 ^ P.w)

/-- R39, R81: the values spell no format. -/
def Params.illegal (P : Params) (s e m : Nat) : Bool :=
  !(decide (s = 1) && P.legal e m)

/-- The transaction can be driven on the ports of `P` and meets the match condition of its row (R41, R45, R49). -/
def Instr.wf (P : Params) : Instr → Bool
  | .formatCheck s e m _ => P.cfgFits s e m
  | .decode s e m _ pat => P.cfgFits s e m && P.patFits pat
  | .zero e m _ _ => P.legal e m
  | .subnormalRef e m _ F => P.legal e m && decide (F ≠ 0) && decide (F < 2 ^ m)
  | .subnormalIeee e m _ F => P.legal e m && decide (F ≠ 0) && decide (F < 2 ^ m)
  | .normal e m _ _ E F => P.legal e m && decide (1 ≤ E) && decide (E + 1 < 2 ^ e) && decide (F < 2 ^ m)
  | .infPos e m _ => P.legal e m
  | .infNeg e m _ => P.legal e m
  | .nan e m _ _ F => P.legal e m && decide (F ≠ 0) && decide (F < 2 ^ m)
  | .invalidFormat s e m _ pat => P.cfgFits s e m && P.patFits pat && P.illegal s e m
  | .invalidPattern e m _ pat => P.legal e m && P.patFits pat && decide (2 ^ (1 + e + m) ≤ pat)
  | .e8m23 _ pat => P.cfgFits 1 8 23 && P.patFits pat
  | .e8m7 _ pat => P.cfgFits 1 8 7 && P.patFits pat
  | .e5m10 _ pat => P.cfgFits 1 5 10 && P.patFits pat
  | .e4m3 _ pat => P.cfgFits 1 4 3 && P.patFits pat
  | .e5m2 _ pat => P.cfgFits 1 5 2 && P.patFits pat
  | .e2m1 _ pat => P.cfgFits 1 2 1 && P.patFits pat

end Sys2Proof
end

