-- ==== Sys2Proof/Decode.lean ====
section
/-! DEFINITION. Bit fields, the fields of a pattern, the validity of a configuration, the packed input word `IN`, and the
decoder and encoder between transaction words and transactions.

A transaction word is `tag * 2^inw + IN`. `IN` is the packed word of R40 (30_encoding.md), bit for bit. The tag above it
is the model's own (DESIGN CHOICE, log entry 5; safe): R40 calls `IN` "only notation", and one `IN` word stands for
several rows of the table at once (every legal one is a FORMAT_CHECK, a DECODE and one class row, and may be a named
format), so the tag says in which of these notations the host wrote it. Tag 0, the bare `IN` word, decodes to the class
row or the error row that its fields select. -/

namespace Sys2Proof

/-! ### Bit fields -/

/-- 00_scope.md section 4: the slice `v[lo+n-1 : lo]`, read as an unsigned integer of `n` bits; empty (0) for `n = 0`. -/
def bits (v lo n : Nat) : Nat :=
  v / 2 ^ lo % 2 ^ n

/-- R35 (30_encoding.md): the three fields of a pattern. -/
structure Fields where
  S : Bool
  E : Nat
  F : Nat
  deriving DecidableEq, Repr

/-- R35, R63: `S <- pat[T-1]`, `E <- pat[T-2:m]`, `F <- pat[m-1:0]` with `T = 1 + e + m`. -/
def patFields (e m pat : Nat) : Fields :=
  { S := decide (bits pat (e + m) 1 = 1), E := bits pat m e, F := bits pat 0 m }

/-- R35: the pattern `S EEE...E MMM...M` of three fields. -/
def patOf (e m : Nat) (S : Bool) (E F : Nat) : Nat :=
  (S.toNat * 2 ^ e + E) * 2 ^ m + F

/-- R37, R41: the all-ones exponent field `Emax = 2^e - 1`. -/
def allOnesExp (e : Nat) : Nat :=
  2 ^ e - 1

/-! ### The configuration check -/

/-- R51 (40_format_spec.md): `FormatValid(s, e, m)`. It takes integers, so that a negative mantissa width is refused as
R53 asks of "a model that takes widths as integers". -/
def formatValid (P : Params) (s e m : Int) : Bool :=
  decide (s = 1) && decide (1 ≤ e) && decide (0 ≤ m) && decide (e ≤ P.expWMax) && decide (m ≤ P.manWMax)

/-! ### The packed input word -/

/-- R40: the fields of the packed input word. -/
structure InWord where
  ieee : Bool
  s : Nat
  e : Nat
  m : Nat
  pat : Nat
  deriving DecidableEq, Repr

/-- R40: `IN = {denorm_ieee, cfg_sign_bits, cfg_exp_bits, cfg_man_bits, pat}`. -/
def packIn (P : Params) (x : InWord) : Nat :=
  (((x.ieee.toNat * 2 ^ sbw + x.s) * 2 ^ P.ebw + x.e) * 2 ^ P.mbw + x.m) * 2 ^ P.w + x.pat

/-- R40: the fields of `IN`, each at its place. -/
def unpackIn (P : Params) (v : Nat) : InWord :=
  { pat := bits v 0 P.w
    m := bits v P.w P.mbw
    e := bits v (P.w + P.mbw) P.ebw
    s := bits v (P.w + P.mbw + P.ebw) sbw
    ieee := decide (bits v (P.w + P.mbw + P.ebw + sbw) 1 = 1) }

/-! ### The decoder -/

/-- Why a word is no transaction word. -/
inductive Reject where
  /-- The tag is none of 0 to 8. -/
  | unknownTag
  /-- A FORMAT_CHECK word drives the configuration ports and the mode (R98), and this one has pattern bits set. -/
  | strayBits
  /-- A named-format word whose configuration is not the one its name expands to (R49). -/
  | otherFormat
  deriving DecidableEq, Repr

/-- R41 (30_encoding.md) under the two checks of R61 (41_decode.md): the class row or error row that an input set
selects. Every input set selects exactly one (R75). -/
def classify (P : Params) (x : InWord) : Instr :=
  if formatValid P x.s x.e x.m then
    if 2 ^ (1 + x.e + x.m) ≤ x.pat then .invalidPattern x.e x.m x.ieee x.pat
    else
      let f := patFields x.e x.m x.pat
      if f.E = 0 then
        if f.F = 0 then .zero x.e x.m x.ieee f.S
        else if x.ieee then .subnormalIeee x.e x.m f.S f.F
        else .subnormalRef x.e x.m f.S f.F
      else if f.E = allOnesExp x.e then
        if f.F = 0 then
          if f.S then .infNeg x.e x.m x.ieee else .infPos x.e x.m x.ieee
        else .nan x.e x.m x.ieee f.S f.F
      else .normal x.e x.m x.ieee f.S f.E f.F
  else .invalidFormat x.s x.e x.m x.ieee x.pat

/-- R49: a named-format word, checked against the widths its name expands to. -/
def named (x : InWord) (e m : Nat) (row : Bool → Nat → Instr) : Except Reject Instr :=
  if x.s = 1 ∧ x.e = e ∧ x.m = m then .ok (row x.ieee x.pat) else .error .otherFormat

/-- The transaction that a transaction word spells, or the reason why it spells none. Total on every number. -/
def decode (P : Params) (v : Nat) : Except Reject Instr :=
  let x := unpackIn P v
  match v / 2 ^ P.inw with
  | 0 => .ok (classify P x)
  | 1 => if x.pat = 0 then .ok (.formatCheck x.s x.e x.m x.ieee) else .error .strayBits
  | 2 => .ok (.decode x.s x.e x.m x.ieee x.pat)
  | 3 => named x 8 23 .e8m23
  | 4 => named x 8 7 .e8m7
  | 5 => named x 5 10 .e5m10
  | 6 => named x 4 3 .e4m3
  | 7 => named x 5 2 .e5m2
  | 8 => named x 2 1 .e2m1
  | _ => .error .unknownTag

/-! ### The encoder -/

/-- The tag of a transaction's notation (log entry 5). -/
def Instr.tag : Instr → Nat
  | .zero _ _ _ _ => 0
  | .subnormalRef _ _ _ _ => 0
  | .subnormalIeee _ _ _ _ => 0
  | .normal _ _ _ _ _ _ => 0
  | .infPos _ _ _ => 0
  | .infNeg _ _ _ => 0
  | .nan _ _ _ _ _ => 0
  | .invalidFormat _ _ _ _ _ => 0
  | .invalidPattern _ _ _ _ => 0
  | .formatCheck _ _ _ _ => 1
  | .decode _ _ _ _ _ => 2
  | .e8m23 _ _ => 3
  | .e8m7 _ _ => 4
  | .e5m10 _ _ => 5
  | .e4m3 _ _ => 6
  | .e5m2 _ _ => 7
  | .e2m1 _ _ => 8

/-- The input set that a transaction drives: R35 and the encodings of R41 for the class rows, R49 for the named formats.
FORMAT_CHECK drives no pattern (R98); its word has 0 there. -/
def Instr.inWord : Instr → InWord
  | .formatCheck s e m ieee => ⟨ieee, s, e, m, 0⟩
  | .decode s e m ieee pat => ⟨ieee, s, e, m, pat⟩
  | .zero e m ieee S => ⟨ieee, 1, e, m, patOf e m S 0 0⟩
  | .subnormalRef e m S F => ⟨false, 1, e, m, patOf e m S 0 F⟩
  | .subnormalIeee e m S F => ⟨true, 1, e, m, patOf e m S 0 F⟩
  | .normal e m ieee S E F => ⟨ieee, 1, e, m, patOf e m S E F⟩
  | .infPos e m ieee => ⟨ieee, 1, e, m, patOf e m false (allOnesExp e) 0⟩
  | .infNeg e m ieee => ⟨ieee, 1, e, m, patOf e m true (allOnesExp e) 0⟩
  | .nan e m ieee S F => ⟨ieee, 1, e, m, patOf e m S (allOnesExp e) F⟩
  | .invalidFormat s e m ieee pat => ⟨ieee, s, e, m, pat⟩
  | .invalidPattern e m ieee pat => ⟨ieee, 1, e, m, pat⟩
  | .e8m23 ieee pat => ⟨ieee, 1, 8, 23, pat⟩
  | .e8m7 ieee pat => ⟨ieee, 1, 8, 7, pat⟩
  | .e5m10 ieee pat => ⟨ieee, 1, 5, 10, pat⟩
  | .e4m3 ieee pat => ⟨ieee, 1, 4, 3, pat⟩
  | .e5m2 ieee pat => ⟨ieee, 1, 5, 2, pat⟩
  | .e2m1 ieee pat => ⟨ieee, 1, 2, 1, pat⟩

/-- The transaction word of a transaction. -/
def encode (P : Params) (i : Instr) : Nat :=
  i.tag * 2 ^ P.inw + packIn P i.inWord

/-! ### The table's view of the decoder -/

/-- What the decoder of the reference part reads from a word of `nbits` bits, numbered as `IN` is in R40 (bit 0 is
`pat[0]`). The block has no bytes (R28), so nothing is reordered. -/
def decodeTableWord (nbits w : Nat) : Option Instr :=
  (decode Params.reference (w % 2 ^ nbits)).toOption

end Sys2Proof
end

