-- ==== Sys2Proof/Machine/Operands.lean ====
section
/-! DEFINITION. The operands of the block's two operations and the values they are computed into: the configuration and
pattern read from the ports, the derived constants, and the exact significand, exponent and value. -/

namespace Sys2Proof.Machine

/-! ### Result domain (R9, 00_scope.md) -/

/-- R9: a decoded value. `Finite` carries a real number, so it has no signed zero. -/
inductive DecodedValue where
  | finite (q : Rat)
  | posInf
  | negInf
  | nan
  deriving DecidableEq, Repr

/-- R9, R81, R82: the two error outcomes. -/
inductive DecodeError where
  | invalidFormat
  | invalidPattern
  deriving DecidableEq, Repr

/-- R51 (40_format_spec.md): the constants that a valid format derives. -/
structure FormatConsts where
  /-- R56: `T`. -/
  totalBits : Nat
  /-- R57. -/
  bias : Int
  deriving DecidableEq, Repr

/-! ### Reading and building input sets -/

/-- R13 (10_state.md): each port read as an unsigned integer. -/
def readInputs {P : Params} (i : Inputs P) : InWord :=
  { ieee := i.denormIeee
    s := i.cfgSignBits.toNat
    e := i.cfgExpBits.toNat
    m := i.cfgManBits.toNat
    pat := i.pat.toNat }

/-- R12: the port levels that carry the given values. -/
def levels (P : Params) (x : InWord) : Inputs P :=
  { pat := BitVec.ofNat _ x.pat
    cfgSignBits := BitVec.ofNat _ x.s
    cfgExpBits := BitVec.ofNat _ x.e
    cfgManBits := BitVec.ofNat _ x.m
    denormIeee := x.ieee }

/-- The port levels that a transaction drives. -/
def inputsOf (P : Params) (i : Instr) : Inputs P :=
  levels P i.inWord

/-! ### Exact arithmetic (00_scope.md section 4) -/

/-- R57: `bias = 2^(e-1) - 1`. -/
def bias (e : Nat) : Int :=
  (2 : Int) ^ (e - 1) - 1

/-- R66, R67 (41_decode.md): the integer `sigI`, the significand times `2^m`. -/
def sigI (m E F : Nat) : Nat :=
  if E ≠ 0 then 2 ^ m + F else F

/-- R60, R66 to R68: the exponent, with the mode's choice for an all-zero exponent field. -/
def exponentOf (e : Nat) (ieee : Bool) (E : Nat) : Int :=
  if E = 0 ∧ ieee = true then 1 - bias e else (E : Int) - bias e

/-- `(-1)^S * k`. -/
def signed (S : Bool) (k : Nat) : Int :=
  if S then -(k : Int) else k

/-- `k * 2^j`, exactly (00_scope.md section 4: "for k < 0 it is the exact rational `1 / 2^(-k)`"). -/
def dyadic (k j : Int) : Rat :=
  if 0 ≤ j then ((k * 2 ^ j.toNat : Int) : Rat) else mkRat k (2 ^ (-j).toNat)

end Sys2Proof.Machine
end

