-- ==== Sys2Proof/Machine/Flags.lean ====
section
/-! DEFINITION. The output maps: what every output port holds for each result class (R70 to R73, 41_decode.md) and for an
error (R80, 60_exceptions.md). -/

namespace Sys2Proof.Machine

/-- R74: "all outputs 0". -/
def zeros (P : Params) : Outputs P :=
  { err := 0b00#2
    isZero := false
    isSubnormal := false
    isNormal := false
    isInf := false
    isNan := false
    sign := false
    sig := 0#_
    exp := 0#_
    fSign := false
    fExp := 0#_
    fMan := 0#_ }

/-- R21 (10_state.md), R74: no error, and the raw fields of the pattern. -/
def rawOutputs (P : Params) (S : Bool) (E F : Nat) : Outputs P :=
  { zeros P with fSign := S, fExp := BitVec.ofNat _ E, fMan := BitVec.ofNat _ F }

/-- R71: Finite(0), of either sign. -/
def zeroOutputs (P : Params) (S : Bool) (E F : Nat) : Outputs P :=
  { rawOutputs P S E F with isZero := true }

/-- R70: a non-zero denormalized result. -/
def subnormalOutputs (P : Params) (S : Bool) (E F : Nat) (sig : Nat) (exponent : Int) : Outputs P :=
  { rawOutputs P S E F with
    isSubnormal := true, sign := S, sig := BitVec.ofNat _ sig, exp := BitVec.ofInt _ exponent }

/-- R70: a normalized result. -/
def normalOutputs (P : Params) (S : Bool) (E F : Nat) (sig : Nat) (exponent : Int) : Outputs P :=
  { rawOutputs P S E F with
    isNormal := true, sign := S, sig := BitVec.ofNat _ sig, exp := BitVec.ofInt _ exponent }

/-- R72: an infinity, negative when `negative`. -/
def infOutputs (P : Params) (negative : Bool) (S : Bool) (E F : Nat) : Outputs P :=
  { rawOutputs P S E F with isInf := true, sign := negative }

/-- R73: NaN, with sign, significand and exponent 0 for every NaN pattern. -/
def nanOutputs (P : Params) (S : Bool) (E F : Nat) : Outputs P :=
  { rawOutputs P S E F with isNan := true }

/-- R16 (10_state.md): the code of an error. -/
def errCode : DecodeError → BitVec 2
  | .invalidFormat => 0b01#2
  | .invalidPattern => 0b10#2

/-- R80 (60_exceptions.md), R22: an error outcome. The code on `err` and 0 on every other output; "it saves nothing,
changes no mode, transfers no control and has nothing to return from". -/
def errorOutputs (P : Params) (x : DecodeError) : Outputs P :=
  { zeros P with err := errCode x }

end Sys2Proof.Machine
end

