-- ==== Sys2Proof/Machine/State.lean ====
section
/-! DEFINITION. The state of one fp_unpack part at its bench: the level of every port and what the spec gives the host, the
transactions still to do and the samples taken. The block itself stores nothing (R10, 10_state.md). -/

namespace Sys2Proof.Machine

/-- Why a run stops with a fault. -/
inductive Fault where
  /-- R90 (60_exceptions.md), 93 I8: a sample shows `err = 0b11`, which the block never drives; "A model that observes it
  from some other source must treat it as a fault, never as a result". Raised by the sample of a transaction that the
  host takes inside the settling window, where the outputs hold any value (R94). Safe: the model stops. -/
  | reservedErr
  deriving DecidableEq, Repr

/-- Why a step has no meaning. -/
inductive Refusal where
  /-- Raised by an arm of `exec` whose row has no meaning yet. Safe: the model stops. -/
  | notModelled (mnemonic : String)
  /-- Raised by every meaning when its transaction is not well-formed on this part: no setting of the ports carries it,
  or the fields are not of the row it names (log entry 6). Safe: the model stops, and the decoder never gives one. -/
  | illFormed
  /-- Raised by `step` when the host's next word spells no transaction (log entry 5). Safe: the model stops. -/
  | noTransaction (why : Reject)
  deriving DecidableEq, Repr

/-- 95_test_vectors.md section 4, R98 (70_reset_and_hazards.md): one transaction of the host's program. -/
structure Transaction where
  /-- The transaction word. -/
  word : Nat
  /-- R95: how long the host holds its inputs before the transaction ends. -/
  hold : Nat
  deriving DecidableEq, Repr

/-- R99: one sampled output set, with the inputs it was taken under. -/
structure Sample (P : Params) where
  inputs : Inputs P
  outputs : Outputs P
  /-- Whether the inputs had been stable for `T_PD` (R94); R96 puts any other sample "outside every claim". -/
  settled : Bool
  deriving DecidableEq, Repr

/-- One part with parameters `P` and the host that drives it. -/
structure Block (P : Params) where
  /-- `T_PD`, R8: an open parameter, in units of time the spec does not name. -/
  tPd : Nat
  /-- The levels on the input ports (R12). -/
  inputs : Inputs P
  /-- R92: a 1 marks an input bit that nothing drives. -/
  floating : Inputs P
  /-- R92: every input bit has been driven since power-up. Until then the outputs hold any value. -/
  everDriven : Bool
  /-- R94: how long the inputs have been stable. -/
  stable : Nat
  /-- The levels on the output ports (R15). -/
  outputs : Outputs P
  /-- The host's program: the transactions still to do, first one first. -/
  pending : List Transaction
  /-- R95: how long the host holds its inputs in the current transaction. -/
  hold : Nat
  /-- The host's record of every sample, oldest first. R99's end state is the settled part of it, `Block.endState`. -/
  samples : List (Sample P)
  /-- The model's own: how many free draws have been made. -/
  draws : Nat
  deriving DecidableEq, Repr

/-- The whole state: which part it is (R6), and that part at its bench. -/
structure State where
  params : Params
  block : Block params
  deriving DecidableEq, Repr

/-- R92, 95 section 4: "inputs undriven, outputs unknown". Input levels and outputs are free draws; nothing has been held
stable, nothing sampled and nothing is asked for. -/
def Block.powerUp (P : Params) (tPd : Nat) : Block P :=
  { tPd := tPd
    inputs := Config.freeInputs P 0
    floating := Inputs.mask P true
    everDriven := false
    stable := 0
    outputs := Config.freeOutputs P 0
    pending := []
    hold := tPd
    samples := []
    draws := 1 }

/-- The reference part (R6) at power-up (R91: there is no reset; R92). `T_PD` is 1 unit (DESIGN CHOICE, log entry 2). -/
def State.reset : State :=
  { params := Params.reference, block := Block.powerUp Params.reference 1 }

end Sys2Proof.Machine
end

