-- ==== Sys2Proof/Machine/Ops.lean ====
section
/-! DEFINITION. The shared operations: the block's combinational function (R51, R60, R74), and what the host does at the
ports (R92 to R99, 70_reset_and_hazards.md): drive, wait, sample. Nothing else changes a state. -/

namespace Sys2Proof.Machine

/-! ### The block's function -/

/-- R51 (40_format_spec.md): `FormatCheck(s, e, m)`. -/
def formatCheck (P : Params) (s e m : Int) : Except DecodeError FormatConsts :=
  if formatValid P s e m then
    .ok { totalBits := (s + e + m).toNat, bias := bias e.toNat }
  else .error .invalidFormat

/-- R60 (41_decode.md): `Decode`, in the order of its pseudocode. -/
def decodeValue {P : Params} (i : Inputs P) : Except DecodeError DecodedValue :=
  let x := readInputs i
  match formatCheck P x.s x.e x.m with
  | .error err => .error err
  | .ok c =>
    if x.pat / 2 ^ c.totalBits ≠ 0 then .error .invalidPattern
    else if x.pat % 2 ^ c.totalBits = 0 then .ok (.finite 0)
    else
      let f := patFields x.e x.m x.pat
      if f.E = allOnesExp x.e then
        if f.F = 0 then
          .ok (if f.S then .negInf else .posInf)
        else .ok .nan
      else
        .ok (.finite (dyadic (signed f.S (sigI x.m f.E f.F)) (exponentOf x.e x.ieee f.E - x.m)))

/-- R74: the port function, the composition of `Decode` and the output map. -/
def fpUnpack (P : Params) (i : Inputs P) : Outputs P :=
  let x := readInputs i
  let f := patFields x.e x.m x.pat
  match decodeValue i with
  | .error err => errorOutputs P err
  | .ok (.finite q) =>
    if q = 0 then zeroOutputs P f.S f.E f.F
    else if f.E ≠ 0 then
      normalOutputs P f.S f.E f.F (sigI x.m f.E f.F) (exponentOf x.e x.ieee f.E)
    else subnormalOutputs P f.S f.E f.F (sigI x.m f.E f.F) (exponentOf x.e x.ieee f.E)
  | .ok .posInf => infOutputs P false f.S f.E f.F
  | .ok .negInf => infOutputs P true f.S f.E f.F
  | .ok .nan => nanOutputs P f.S f.E f.F

/-- R74, R20: the value read back from the ports of a part configured with mantissa width `m`; R90: `err = 0b11` is a
fault, never a result. -/
def readBack {P : Params} (m : Nat) (o : Outputs P) : Except Fault (Except DecodeError DecodedValue) :=
  if o.err = 0b11#2 then .error .reservedErr
  else if o.err = 0b01#2 then .ok (.error .invalidFormat)
  else if o.err = 0b10#2 then .ok (.error .invalidPattern)
  else if o.isZero then .ok (.ok (.finite 0))
  else if o.isInf then .ok (.ok (if o.sign then .negInf else .posInf))
  else if o.isNan then .ok (.ok .nan)
  else .ok (.ok (.finite (dyadic (signed o.sign o.sig.toNat) (o.exp.toInt - m))))

/-! ### Driving the input ports -/

/-- R92: no bit floats. -/
def allDriven (P : Params) : Inputs P :=
  Inputs.mask P false

/-- R92, 93 I11: the levels on ports whose masked bits float at the levels of a free draw. -/
def mergeFloating {P : Params} (mask driven drawn : Inputs P) : Inputs P :=
  { pat := (driven.pat &&& ~~~mask.pat) ||| (drawn.pat &&& mask.pat)
    cfgSignBits := (driven.cfgSignBits &&& ~~~mask.cfgSignBits) ||| (drawn.cfgSignBits &&& mask.cfgSignBits)
    cfgExpBits := (driven.cfgExpBits &&& ~~~mask.cfgExpBits) ||| (drawn.cfgExpBits &&& mask.cfgExpBits)
    cfgManBits := (driven.cfgManBits &&& ~~~mask.cfgManBits) ||| (drawn.cfgManBits &&& mask.cfgManBits)
    denormIeee := if mask.denormIeee then drawn.denormIeee else driven.denormIeee }

namespace Block

variable {P : Params}

/-- R92, 93 I11: every floating input bit takes a new level, which starts a settling window. -/
def redraw (b : Block P) : Block P :=
  if b.floating = allDriven P then b
  else
    { b with
      inputs := mergeFloating b.floating b.inputs (Config.freeInputs P b.draws)
      stable := 0
      draws := b.draws + 1 }

/-- R94: every input bit is driven, and the levels `i` stand on the ports already, so that driving them changes nothing. -/
def standsAt (b : Block P) (i : Inputs P) : Bool :=
  b.everDriven && decide (b.floating = allDriven P) && decide (b.inputs = i)

/-- R98 "decode": the host drives every input bit. R94: the settling window runs from the last change, so driving the
levels that already stand is no change (log entry 10). -/
def drive (b : Block P) (i : Inputs P) : Block P :=
  { b with
    inputs := i
    floating := allDriven P
    everDriven := true
    stable := if b.standsAt i then b.stable else 0 }

/-- R98 "select format": the host drives the configuration ports and `denorm_ieee`, and leaves `pat` as it is. -/
def driveFormat (b : Block P) (i : Inputs P) : Block P :=
  let r := b.redraw
  let now : Inputs P := { i with pat := r.inputs.pat }
  let mask : Inputs P := { allDriven P with pat := r.floating.pat }
  { r with
    inputs := now
    floating := mask
    everDriven := r.everDriven || decide (mask = allDriven P)
    stable := if b.standsAt now then b.stable else 0 }

/-! ### Waiting -/

/-- R92, R94: the inputs have been driven and have been stable for `T_PD`. -/
def settled (b : Block P) : Bool :=
  b.everDriven && decide (b.tPd ≤ b.stable)

/-- R92, R94: the inputs are held for `t`. Once they have been driven and stable for `T_PD` the outputs are `o`, the
function of the inputs; until then they are any value, a free draw. -/
def settleFor (b : Block P) (t : Nat) (o : Outputs P) : Block P :=
  if b.everDriven = true ∧ b.tPd ≤ b.stable + t then { b with stable := b.stable + t, outputs := o }
  else
    { b with
      stable := b.stable + t
      outputs := Config.freeOutputs P b.draws
      draws := b.draws + 1 }

/-- The host asks for nothing and holds its inputs for one unit of time (log entry 8). -/
def idle (b : Block P) : Block P :=
  b.redraw.settleFor 1 (fpUnpack P b.redraw.inputs)

/-! ### Sampling -/

/-- R99: the host samples the outputs. R90: a sample that shows `err = 0b11` is a fault. -/
def sample (b : Block P) : Host.Outcome (Block P) Fault Refusal :=
  if b.outputs.err = 0b11#2 then .fault .reservedErr
  else
    .next { b with samples := b.samples ++ [{ inputs := b.inputs, outputs := b.outputs, settled := b.settled }] }

/-- R95, R99: one decode transaction. The host drives the inputs `i`, holds them, and samples; `o` is what the outputs
settle to. -/
def decodeTransaction (b : Block P) (i : Inputs P) (o : Outputs P) : Host.Outcome (Block P) Fault Refusal :=
  ((b.drive i).settleFor b.hold o).sample

/-- R98 "select format": the host drives the configuration and the mode and holds them. "block gives: nothing by itself", so no sample
is taken (log entry 7); the outputs follow the new configuration once the block settles (R23, R94). -/
def formatTransaction (b : Block P) (i : Inputs P) : Block P :=
  (b.driveFormat i).settleFor b.hold (fpUnpack P (b.driveFormat i).inputs)

/-- R99: the end state of a program, "the list of sampled output sets", oldest first. It does not include "anything about a
sample taken within a settling window". -/
def endState (b : Block P) : List (Outputs P) :=
  (b.samples.filter (·.settled)).map (·.outputs)

/-- R51: the derived constants of the configuration on the ports, or InvalidFormat. Nothing stores them (R23). -/
def format (b : Block P) : Except DecodeError FormatConsts :=
  formatCheck P b.inputs.cfgSignBits.toNat b.inputs.cfgExpBits.toNat b.inputs.cfgManBits.toNat

/-- The host puts one more transaction before those it still has to do, to be held for `T_PD` (R95). -/
def enqueue (b : Block P) (word : Nat) : Block P :=
  { b with pending := { word := word, hold := b.tPd } :: b.pending }

/-- The host's next transaction, and the block with that transaction begun. -/
def fetch (b : Block P) : Option (Transaction × Block P) :=
  match b.pending with
  | [] => none
  | t :: rest => some (t, { b with pending := rest, hold := t.hold })

end Block

namespace State

/-- The state with its part's bench replaced. -/
def withBlock (s : State) (b : Block s.params) : State :=
  { params := s.params, block := b }

/-- A decode transaction of a well-formed row: its inputs are driven, and the outputs settle to what the row's rules
give. -/
def transact (s : State) (i : Instr) (o : Outputs s.params) : Host.Outcome State Fault Refusal :=
  if i.wf s.params then
    match s.block.decodeTransaction (inputsOf s.params i) o with
    | .next b => .next (s.withBlock b)
    | .fault r => .fault r
    | .refused r => .refused r
  else .refused .illFormed

/-- A format selection of a well-formed row. -/
def select (s : State) (i : Instr) : Host.Outcome State Fault Refusal :=
  if i.wf s.params then .next (s.withBlock (s.block.formatTransaction (inputsOf s.params i)))
  else .refused .illFormed

end State

end Sys2Proof.Machine
end

