-- ==== Sys2Proof/Machine/Classes.lean ====
section
/-! DEFINITION. The meanings of the class rows and of the error rows, each straight from its own case rule (R62 to R69,
R81, R82) and output map (R70 to R73, R80). That they agree with DECODE's composition (R60, R74) is a statement. -/

namespace Sys2Proof.Machine

/-- ZERO, R62, R69, R71: Finite(0) for both signs. -/
def execZero (e m : Nat) (ieee S : Bool) (st : State) : Host.Outcome State Fault Refusal :=
  st.transact (.zero e m ieee S) (zeroOutputs st.params S 0 0)

/-- SUBNORMAL_REF, R67, R70: significand F, exponent `-bias`. -/
def execSubnormalRef (e m : Nat) (S : Bool) (F : Nat) (st : State) : Host.Outcome State Fault Refusal :=
  st.transact (.subnormalRef e m S F) (subnormalOutputs st.params S 0 F F (-bias e))

/-- SUBNORMAL_IEEE, R68, R70: significand F, exponent `1 - bias`. -/
def execSubnormalIeee (e m : Nat) (S : Bool) (F : Nat) (st : State) : Host.Outcome State Fault Refusal :=
  st.transact (.subnormalIeee e m S F) (subnormalOutputs st.params S 0 F F (1 - bias e))

/-- NORMAL, R66, R70: significand `2^m + F`, exponent `E - bias`. -/
def execNormal (e m : Nat) (ieee S : Bool) (E F : Nat) (st : State) : Host.Outcome State Fault Refusal :=
  st.transact (.normal e m ieee S E F) (normalOutputs st.params S E F (2 ^ m + F) (E - bias e))

/-- INF_POS, R64, R72: PositiveInfinity. -/
def execInfPos (e m : Nat) (ieee : Bool) (st : State) : Host.Outcome State Fault Refusal :=
  st.transact (.infPos e m ieee) (infOutputs st.params false false (allOnesExp e) 0)

/-- INF_NEG, R64, R72: NegativeInfinity. -/
def execInfNeg (e m : Nat) (ieee : Bool) (st : State) : Host.Outcome State Fault Refusal :=
  st.transact (.infNeg e m ieee) (infOutputs st.params true true (allOnesExp e) 0)

/-- NAN, R65, R73: the one NaN; the raw sign stays visible on `f_sign`. -/
def execNan (e m : Nat) (ieee S : Bool) (F : Nat) (st : State) : Host.Outcome State Fault Refusal :=
  st.transact (.nan e m ieee S F) (nanOutputs st.params S (allOnesExp e) F)

/-- INVALID_FORMAT, R81: `err = 0b01` whatever `pat` holds, so it has priority over InvalidPattern (R83). -/
def execInvalidFormat (s e m : Nat) (ieee : Bool) (pat : Nat) (st : State) : Host.Outcome State Fault Refusal :=
  st.transact (.invalidFormat s e m ieee pat) (errorOutputs st.params .invalidFormat)

/-- INVALID_PATTERN, R82: `err = 0b10`. -/
def execInvalidPattern (e m : Nat) (ieee : Bool) (pat : Nat) (st : State) : Host.Outcome State Fault Refusal :=
  st.transact (.invalidPattern e m ieee pat) (errorOutputs st.params .invalidPattern)

end Sys2Proof.Machine
end

