-- ==== Sys2Proof/Machine/NamedFormats.lean ====
section
/-! DEFINITION. The meanings of the named formats (R49, 30_encoding.md): each is a decode transaction with `cfg_sign_bits = 1`
and "exactly the widths given and the decode rules of 41_decode.md". -/

namespace Sys2Proof.Machine

/-- E8M23, R49: `DEC (1,8,23)[.ieee] pat`. -/
def execE8m23 (ieee : Bool) (pat : Nat) (st : State) : Host.Outcome State Fault Refusal :=
  st.transact (.e8m23 ieee pat) (fpUnpack st.params (inputsOf st.params (.e8m23 ieee pat)))

/-- E8M7, R49: `DEC (1,8,7)[.ieee] pat`. -/
def execE8m7 (ieee : Bool) (pat : Nat) (st : State) : Host.Outcome State Fault Refusal :=
  st.transact (.e8m7 ieee pat) (fpUnpack st.params (inputsOf st.params (.e8m7 ieee pat)))

/-- E5M10, R49: `DEC (1,5,10)[.ieee] pat`. -/
def execE5m10 (ieee : Bool) (pat : Nat) (st : State) : Host.Outcome State Fault Refusal :=
  st.transact (.e5m10 ieee pat) (fpUnpack st.params (inputsOf st.params (.e5m10 ieee pat)))

/-- E4M3, R49: `DEC (1,4,3)[.ieee] pat`. -/
def execE4m3 (ieee : Bool) (pat : Nat) (st : State) : Host.Outcome State Fault Refusal :=
  st.transact (.e4m3 ieee pat) (fpUnpack st.params (inputsOf st.params (.e4m3 ieee pat)))

/-- E5M2, R49: `DEC (1,5,2)[.ieee] pat`. -/
def execE5m2 (ieee : Bool) (pat : Nat) (st : State) : Host.Outcome State Fault Refusal :=
  st.transact (.e5m2 ieee pat) (fpUnpack st.params (inputsOf st.params (.e5m2 ieee pat)))

/-- E2M1, R49: `DEC (1,2,1)[.ieee] pat`. -/
def execE2m1 (ieee : Bool) (pat : Nat) (st : State) : Host.Outcome State Fault Refusal :=
  st.transact (.e2m1 ieee pat) (fpUnpack st.params (inputsOf st.params (.e2m1 ieee pat)))

end Sys2Proof.Machine
end

