-- ==== Sys2Proof/Machine/Operations.lean ====
section
/-! DEFINITION. The meanings of the two operations, FORMAT_CHECK (40_format_spec.md) and DECODE (41_decode.md). -/

namespace Sys2Proof.Machine

/-- FORMAT_CHECK, R51 and R98: selects the format `(s, e, m)` and the denormal mode. `T` and `bias`, or InvalidFormat, are then
`Block.format`, and once the block has settled an invalid format shows on `err` (R81). -/
def execFormatCheck (s e m : Nat) (st : State) (ieee : Bool := false) : Host.Outcome State Fault Refusal :=
  st.select (.formatCheck s e m ieee)

/-- DECODE, R60 and R74: both errors and every class. -/
def execDecode (s e m : Nat) (ieee : Bool) (pat : Nat) (st : State) : Host.Outcome State Fault Refusal :=
  st.transact (.decode s e m ieee pat) (fpUnpack st.params (inputsOf st.params (.decode s e m ieee pat)))

end Sys2Proof.Machine
end

