-- ==== Sys2Proof/Machine/Dispatch.lean ====
section
/-! DEFINITION. One arm for each constructor of Instr. -/

namespace Sys2Proof.Machine

def exec (i : Instr) (s : State) : Host.Outcome State Fault Refusal :=
  match i with
  | .formatCheck sb e m ieee => Sys2Proof.Machine.execFormatCheck sb e m s ieee
  | .decode sb e m ieee pat => Sys2Proof.Machine.execDecode sb e m ieee pat s
  | .zero e m ieee S => Sys2Proof.Machine.execZero e m ieee S s
  | .subnormalRef e m S F => Sys2Proof.Machine.execSubnormalRef e m S F s
  | .subnormalIeee e m S F => Sys2Proof.Machine.execSubnormalIeee e m S F s
  | .normal e m ieee S E F => Sys2Proof.Machine.execNormal e m ieee S E F s
  | .infPos e m ieee => Sys2Proof.Machine.execInfPos e m ieee s
  | .infNeg e m ieee => Sys2Proof.Machine.execInfNeg e m ieee s
  | .nan e m ieee S F => Sys2Proof.Machine.execNan e m ieee S F s
  | .invalidFormat sb e m ieee pat => Sys2Proof.Machine.execInvalidFormat sb e m ieee pat s
  | .invalidPattern e m ieee pat => Sys2Proof.Machine.execInvalidPattern e m ieee pat s
  | .e8m23 ieee pat => Sys2Proof.Machine.execE8m23 ieee pat s
  | .e8m7 ieee pat => Sys2Proof.Machine.execE8m7 ieee pat s
  | .e5m10 ieee pat => Sys2Proof.Machine.execE5m10 ieee pat s
  | .e4m3 ieee pat => Sys2Proof.Machine.execE4m3 ieee pat s
  | .e5m2 ieee pat => Sys2Proof.Machine.execE5m2 ieee pat s
  | .e2m1 ieee pat => Sys2Proof.Machine.execE2m1 ieee pat s

end Sys2Proof.Machine
end

