-- ==== Sys2Proof/Machine/Step.lean ====
section
/-! DEFINITION. One step: the host's next transaction, seen by the block. -/

namespace Sys2Proof.Machine

/-- R99 (70_reset_and_hazards.md): the next transaction of the host's program. With nothing to do the host holds its
inputs (log entry 8). -/
def step (s : State) : Host.Outcome State Fault Refusal :=
  match s.block.fetch with
  | none => .next (s.withBlock s.block.idle)
  | some (t, b) =>
    match decode s.params t.word with
    | .ok i => exec i (s.withBlock b)
    | .error why => .refused (.noTransaction why)

/-- The state whose next transaction is the word `w` of `nbits` bits, held for `T_PD` (log entry 11). -/
def State.withFetchWord (s : State) (nbits w : Nat) : State :=
  s.withBlock (s.block.enqueue (w % 2 ^ nbits))

end Sys2Proof.Machine
end

