-- ==== Sys2Proof/Safety.lean ====
section
/-! DEFINITION. The words in which claims are stated: the host's duty, what the output ports show, the state after a
completed transaction, and the invariant of a run. -/

namespace Sys2Proof.Machine

/-- R95 (70_reset_and_hazards.md): the host "samples no earlier than `T_PD` after the last input change". -/
def HostWaits (s : State) : Prop :=
  s.block.tPd ≤ s.block.hold

/-- R41 (30_encoding.md): the result classes. -/
inductive ResultClass where
  | zero
  | subnormal
  | normal
  | inf
  | nan
  deriving DecidableEq, Repr

/-- R17, R70 to R73: the output ports show a result of class `c` with the raw fields `f`, and `sign`, `sig` and `exp`
read as a sign, an unsigned integer and a two's-complement integer. -/
structure Shows {P : Params} (o : Outputs P) (c : ResultClass) (f : Fields) (sign : Bool) (sig : Nat) (exponent : Int) :
    Prop where
  err : o.err = 0b00#2
  isZero : o.isZero = decide (c = .zero)
  isSubnormal : o.isSubnormal = decide (c = .subnormal)
  isNormal : o.isNormal = decide (c = .normal)
  isInf : o.isInf = decide (c = .inf)
  isNan : o.isNan = decide (c = .nan)
  sign : o.sign = sign
  sig : o.sig.toNat = sig
  exp : o.exp.toInt = exponent
  fSign : o.fSign = f.S
  fExp : o.fExp.toNat = f.E
  fMan : o.fMan.toNat = f.F

/-- R22, R80: the output ports show the error code `code` and 0 everywhere else. -/
structure ShowsError {P : Params} (o : Outputs P) (code : BitVec 2) : Prop where
  err : o.err = code
  isZero : o.isZero = false
  isSubnormal : o.isSubnormal = false
  isNormal : o.isNormal = false
  isInf : o.isInf = false
  isNan : o.isNan = false
  sign : o.sign = false
  sig : o.sig.toNat = 0
  exp : o.exp.toInt = 0
  fSign : o.fSign = false
  fExp : o.fExp.toNat = 0
  fMan : o.fMan.toNat = 0

/-- How long the inputs have been stable when a transaction that drives `i` ends (R94): the window runs from the last
change of an input. -/
def Block.stableAfter {P : Params} (b : Block P) (i : Inputs P) : Nat :=
  (if b.standsAt i then b.stable else 0) + b.hold

/-- The state after a completed decode transaction, all of it: every input bit is driven with the levels `i`, the outputs
hold `o`, one settled sample is added, and everything else is as before. -/
def State.sampled (s : State) (i : Inputs s.params) (o : Outputs s.params) : State :=
  s.withBlock
    { tPd := s.block.tPd
      inputs := i
      floating := allDriven s.params
      everDriven := true
      stable := s.block.stableAfter i
      outputs := o
      pending := s.block.pending
      hold := s.block.hold
      samples := s.block.samples ++ [{ inputs := i, outputs := o, settled := true }]
      draws := s.block.draws }

/-- The row `i` completes in `s`: it drives the input set `x`, samples, and the outputs sampled are as `shown` says. -/
def Completes (i : Instr) (s : State) (x : InWord) (shown : Outputs s.params → Prop) : Prop :=
  ∃ inp out, exec i s = .next (s.sampled inp out) ∧ readInputs inp = x ∧ shown out

/-- R24, R94, R90: what every run keeps. Settled outputs are the function of the inputs, so is every settled sample, and no
sample shows the code that is never driven. -/
structure Block.Inv {P : Params} (b : Block P) : Prop where
  outputs_settled : b.settled = true → b.outputs = fpUnpack P b.inputs
  samples_settled : ∀ x ∈ b.samples, x.settled = true → x.outputs = fpUnpack P x.inputs
  samples_err : ∀ x ∈ b.samples, x.outputs.err ≠ 0b11#2

/-- The invariant of a state. -/
def State.Inv (s : State) : Prop :=
  s.block.Inv

end Sys2Proof.Machine
end

