-- ==== Sys2Proof/Certificates/Slice0/Obligations.lean ====
section
/-! DEFINITION. The statements for the provers. Each docstring names the rules it formalises. -/

open Sys2Proof Sys2Proof.Machine

/-! ### Words and decoding -/

/-- R40, R41, R36 (30_encoding.md), 95_test_vectors.md: words written out from the encodings decode to their rows on the
reference part. The tags above bit 43 are the model's own (log entry 5). -/
def Obligations.TableWordsDecodeToTheirRows : Prop :=
  decode Params.reference 0x28300000080 = .ok (.zero 4 3 false true) ∧
  decode Params.reference 0x28300000007 = .ok (.subnormalRef 4 3 false 7) ∧
  decode Params.reference 0xA8300000081 = .ok (.subnormalIeee 4 3 true 1) ∧
  decode Params.reference 0x28300000077 = .ok (.normal 4 3 false false 14 7) ∧
  decode Params.reference 0x31740490FDB = .ok (.normal 8 23 false false 128 4788187) ∧
  decode Params.reference 0x28300000078 = .ok (.infPos 4 3 false) ∧
  decode Params.reference 0x283000000F8 = .ok (.infNeg 4 3 false) ∧
  decode Params.reference 0x283000000FF = .ok (.nan 4 3 false true 7) ∧
  decode Params.reference 0x2030000FFFF = .ok (.invalidFormat 1 0 3 false 0xFFFF) ∧
  decode Params.reference 0x28300000138 = .ok (.invalidPattern 4 3 false 0x138) ∧
  decode Params.reference 0x128300000000 = .ok (.formatCheck 1 4 3 false) ∧
  decode Params.reference 0x2A8300000007 = .ok (.decode 1 4 3 true 7) ∧
  decode Params.reference 0x628300000077 = .ok (.e4m3 false 0x77)

/-- R35 (30_encoding.md): which bit of the pattern is which bit of each field, with R37's and R38's bit numbers. With
`m = 0` the mantissa field is 0. -/
def Obligations.FieldsOfAPatternBitByBit : Prop :=
  ∀ e m pat k : Nat,
    (patFields e m pat).S = pat.testBit (e + m) ∧
    (patFields e m pat).E.testBit k = (decide (k < e) && pat.testBit (m + k)) ∧
    (patFields e m pat).F.testBit k = (decide (k < m) && pat.testBit k)

/-- Derived (R40): where each input port stands in the packed word of the reference part, and that the word is 44 bits wide. -/
def Obligations.InWordLayoutOfTheReferencePart : Prop :=
  ∀ x : InWord, x.s < 4 → x.e < 16 → x.m < 32 → x.pat < 2 ^ 32 →
    packIn Params.reference x < 2 ^ 44 ∧
    packIn Params.reference x / 2 ^ 43 = x.ieee.toNat ∧
    packIn Params.reference x / 2 ^ 41 % 2 ^ 2 = x.s ∧
    packIn Params.reference x / 2 ^ 37 % 2 ^ 4 = x.e ∧
    packIn Params.reference x / 2 ^ 32 % 2 ^ 5 = x.m ∧
    packIn Params.reference x % 2 ^ 32 = x.pat

/-- Derived (R35, R40, R41, log entry 5): no operand of any row is lost or changed between a transaction and its word. -/
def Obligations.DecodeOfEncodeIsTheTransaction : Prop :=
  ∀ (P : Params) (i : Instr), i.wf P = true → decode P (encode P i) = .ok i

/-- Derived (R35, R40, R41, log entry 5): a word that decodes spells one well-formed transaction, whose word it is; no bit
of it is dropped. -/
def Obligations.EncodeOfDecodeIsTheWord : Prop :=
  ∀ (P : Params) (v : Nat) (i : Instr), decode P v = .ok i → i.wf P = true ∧ encode P i = v

/-- Derived (R41, R45, R75): every input set selects exactly one of the nine class and error rows. That a bare `IN` word
decodes to that row, and not to DECODE, is the model's choice (log entry 5). -/
def Obligations.EveryInputWordSelectsOneRow : Prop :=
  ∀ (P : Params) (x : InWord), x.s < 4 → x.e < 2 ^ P.ebw → x.m < 2 ^ P.mbw → x.pat < 2 ^ P.w →
    ∃ i : Instr, decode P (packIn P x) = .ok i ∧ i.tag = 0 ∧ i.inWord = x ∧
      ∀ j : Instr, j.wf P = true → j.tag = 0 → j.inWord = x → j = i

/-! ### Steps -/

/-- A step runs the decoded transaction, with the hold time that the host gave it. Derived (R99, R95; log entries 11, 14,
17). -/
def Obligations.StepRunsTheDecodedTransaction : Prop :=
  (∀ (s : State) (t : Transaction) (rest : List Transaction) (i : Instr),
    s.block.pending = t :: rest → decode s.params t.word = .ok i →
      step s = exec i (s.withBlock { s.block with pending := rest, hold := t.hold })) ∧
  (∀ (s : State) (nbits w : Nat) (i : Instr), decode s.params (w % 2 ^ nbits) = .ok i →
      step (s.withFetchWord nbits w) = exec i (s.withBlock { s.block with hold := s.block.tPd }))

/-- A word that spells no transaction is refused, by the reason why (log entry 5; the model's choice). -/
def Obligations.StepRefusesWordsThatSpellNothing : Prop :=
  ∀ (s : State) (t : Transaction) (rest : List Transaction) (why : Reject),
    s.block.pending = t :: rest → decode s.params t.word = .error why →
      step s = .refused (.noTransaction why)

/-- R92, R94, with the model's idle step (log entry 8): with nothing to do the host holds its inputs for one unit. The
outputs are the function of the inputs once these have been driven and stable for `T_PD`, and a free draw before; a
floating input bit restarts the window. -/
def Obligations.IdleStepHoldsTheInputs : Prop :=
  ∀ s : State, s.block.pending = [] →
    ∃ b : Block s.params, step s = .next (s.withBlock b) ∧
      b.samples = s.block.samples ∧ b.pending = [] ∧ b.floating = s.block.floating ∧
      b.tPd = s.block.tPd ∧ b.hold = s.block.hold ∧
      (s.block.floating = allDriven s.params → b.inputs = s.block.inputs ∧ b.stable = s.block.stable + 1) ∧
      (s.block.floating ≠ allDriven s.params →
        b.inputs = mergeFloating s.block.floating s.block.inputs (Config.freeInputs s.params s.block.draws) ∧
        b.stable = 1) ∧
      b.everDriven = s.block.everDriven ∧
      (b.everDriven = true → b.tPd ≤ b.stable → b.outputs = fpUnpack s.params b.inputs) ∧
      (b.everDriven = false ∨ b.stable < b.tPd → ∃ n, s.block.draws ≤ n ∧ n < b.draws ∧ b.outputs = Config.freeOutputs s.params n)

/-! ### FORMAT_CHECK -/

/-- R51 to R55, R57 (40_format_spec.md): the check over all integers, negative mantissa widths (R53) among them. -/
def Obligations.FormatCheckAnswersTheLegalFormats : Prop :=
  ∀ (P : Params) (s e m : Int),
    (s = 1 ∧ 1 ≤ e ∧ 0 ≤ m ∧ e ≤ P.expWMax ∧ m ≤ P.manWMax →
      formatCheck P s e m = .ok { totalBits := (s + e + m).toNat, bias := 2 ^ (e - 1).toNat - 1 }) ∧
    (¬ (s = 1 ∧ 1 ≤ e ∧ 0 ≤ m ∧ e ≤ P.expWMax ∧ m ≤ P.manWMax) →
      formatCheck P s e m = .error .invalidFormat)

/-- R56, R57: `T = 1 + e + m` with `2 <= T <= W`, and a non-negative bias, for every format that the check admits. -/
def Obligations.ValidFormatBounds : Prop :=
  ∀ (P : Params) (s e m : Nat) (c : FormatConsts), formatCheck P s e m = .ok c →
    c.totalBits = 1 + e + m ∧ 2 ≤ c.totalBits ∧ c.totalBits ≤ P.w ∧ c.bias = 2 ^ (e - 1) - 1 ∧ 0 ≤ c.bias

/-- R7 (00_scope.md), R39: the configuration ports are wide enough for every legal value, and no narrower port would be. -/
def Obligations.ConfigurationPortsHoldEveryLegalWidth : Prop :=
  ∀ P : Params, P.expWMax < 2 ^ P.ebw ∧ P.manWMax < 2 ^ P.mbw ∧
    (∀ k, P.expWMax < 2 ^ k → P.ebw ≤ k) ∧ (∀ k, 1 ≤ k → P.manWMax < 2 ^ k → P.mbw ≤ k)

/-- Derived (R51, R98, R94, R23; log entry 7): FORMAT_CHECK completes and selects the format and the mode. The configuration
ports hold (s, e, m) and `denorm_ieee` the mode, driven bits of `pat` keep their levels, and no sample is taken. An illegal
configuration has InvalidFormat and a legal one its `T` and `bias`. Unless some input bit has not been driven since
power-up (R92), the outputs follow the new configuration, and an illegal one shows InvalidFormat.
The bench around the ports is the model's (log entries 14, 17). -/
def Obligations.FormatCheckSelectsTheFormat : Prop :=
  ∀ (st : State) (s e m : Nat) (ieee : Bool), s < 4 → e < 2 ^ st.params.ebw → m < 2 ^ st.params.mbw → HostWaits st →
    ∃ b : Block st.params, exec (.formatCheck s e m ieee) st = .next (st.withBlock b) ∧
      b.inputs.cfgSignBits.toNat = s ∧ b.inputs.cfgExpBits.toNat = e ∧ b.inputs.cfgManBits.toNat = m ∧
      b.inputs.denormIeee = ieee ∧
      b.inputs.pat &&& ~~~st.block.floating.pat = st.block.inputs.pat &&& ~~~st.block.floating.pat ∧
      b.floating.pat = st.block.floating.pat ∧ b.floating.denormIeee = false ∧
      b.floating.cfgSignBits = 0 ∧ b.floating.cfgExpBits = 0 ∧ b.floating.cfgManBits = 0 ∧
      b.samples = st.block.samples ∧ b.pending = st.block.pending ∧ b.hold = st.block.hold ∧ b.tPd = st.block.tPd ∧
      (b.everDriven = true ↔ st.block.everDriven = true ∨ st.block.floating.pat = 0) ∧
      (b.everDriven = true → b.outputs = fpUnpack st.params b.inputs) ∧
      (¬ (s = 1 ∧ 1 ≤ e ∧ e ≤ st.params.expWMax ∧ m ≤ st.params.manWMax) →
        (b.everDriven = true → ShowsError b.outputs 0b01) ∧ b.format = .error .invalidFormat) ∧
      (s = 1 ∧ 1 ≤ e ∧ e ≤ st.params.expWMax ∧ m ≤ st.params.manWMax →
        b.format = .ok { totalBits := 1 + e + m, bias := 2 ^ (e - 1) - 1 })

/-! ### The class rows and the error rows -/

/-- R62, R69, R71: ZERO completes, for both signs and in both modes, and shows Finite(0).
The bench around the ports is the model's (log entries 14, 17). -/
def Obligations.ZeroRowShowsZero : Prop :=
  ∀ (s : State) (e m : Nat) (ieee S : Bool),
    1 ≤ e → e ≤ s.params.expWMax → m ≤ s.params.manWMax → HostWaits s →
    Completes (.zero e m ieee S) s ⟨ieee, 1, e, m, S.toNat * 2 ^ (e + m)⟩
      (fun o => Shows o .zero ⟨S, 0, 0⟩ false 0 0)

/-- R67, R70: SUBNORMAL_REF completes with significand F and exponent `-bias`.
The bench around the ports is the model's (log entries 14, 17). -/
def Obligations.SubnormalRefRowShowsMinusBias : Prop :=
  ∀ (s : State) (e m : Nat) (S : Bool) (F : Nat),
    1 ≤ e → e ≤ s.params.expWMax → m ≤ s.params.manWMax → F ≠ 0 → F < 2 ^ m → HostWaits s →
    Completes (.subnormalRef e m S F) s ⟨false, 1, e, m, S.toNat * 2 ^ (e + m) + F⟩
      (fun o => Shows o .subnormal ⟨S, 0, F⟩ S F (-(2 ^ (e - 1) - 1)))

/-- R68, R70: SUBNORMAL_IEEE completes with significand F and exponent `1 - bias`.
The bench around the ports is the model's (log entries 14, 17). -/
def Obligations.SubnormalIeeeRowShowsOneMinusBias : Prop :=
  ∀ (s : State) (e m : Nat) (S : Bool) (F : Nat),
    1 ≤ e → e ≤ s.params.expWMax → m ≤ s.params.manWMax → F ≠ 0 → F < 2 ^ m → HostWaits s →
    Completes (.subnormalIeee e m S F) s ⟨true, 1, e, m, S.toNat * 2 ^ (e + m) + F⟩
      (fun o => Shows o .subnormal ⟨S, 0, F⟩ S F (1 - (2 ^ (e - 1) - 1)))

/-- R66, R70: NORMAL completes with significand `2^m + F` and exponent `E - bias`.
The bench around the ports is the model's (log entries 14, 17). -/
def Obligations.NormalRowShowsTheValue : Prop :=
  ∀ (s : State) (e m : Nat) (ieee S : Bool) (E F : Nat),
    1 ≤ e → e ≤ s.params.expWMax → m ≤ s.params.manWMax → 1 ≤ E → E < 2 ^ e - 1 → F < 2 ^ m → HostWaits s →
    Completes (.normal e m ieee S E F) s ⟨ieee, 1, e, m, S.toNat * 2 ^ (e + m) + E * 2 ^ m + F⟩
      (fun o => Shows o .normal ⟨S, E, F⟩ S (2 ^ m + F) (E - (2 ^ (e - 1) - 1)))

/-- R64, R72: INF_POS and INF_NEG complete and show the infinity of their sign.
The bench around the ports is the model's (log entries 14, 17). -/
def Obligations.InfinityRowsShowTheirSign : Prop :=
  ∀ (s : State) (e m : Nat) (ieee : Bool),
    1 ≤ e → e ≤ s.params.expWMax → m ≤ s.params.manWMax → HostWaits s →
    Completes (.infPos e m ieee) s ⟨ieee, 1, e, m, (2 ^ e - 1) * 2 ^ m⟩
      (fun o => Shows o .inf ⟨false, 2 ^ e - 1, 0⟩ false 0 0) ∧
    Completes (.infNeg e m ieee) s ⟨ieee, 1, e, m, 2 ^ (e + m) + (2 ^ e - 1) * 2 ^ m⟩
      (fun o => Shows o .inf ⟨true, 2 ^ e - 1, 0⟩ true 0 0)

/-- R65, R73: NAN completes, with sign 0 for both raw signs; the raw sign stays on `f_sign`.
The bench around the ports is the model's (log entries 14, 17). -/
def Obligations.NanRowDropsTheSign : Prop :=
  ∀ (s : State) (e m : Nat) (ieee S : Bool) (F : Nat),
    1 ≤ e → e ≤ s.params.expWMax → m ≤ s.params.manWMax → F ≠ 0 → F < 2 ^ m → HostWaits s →
    Completes (.nan e m ieee S F) s ⟨ieee, 1, e, m, S.toNat * 2 ^ (e + m) + (2 ^ e - 1) * 2 ^ m + F⟩
      (fun o => Shows o .nan ⟨S, 2 ^ e - 1, F⟩ false 0 0)

/-- R81, R83, R22: INVALID_FORMAT completes with `err = 0b01` and 0 on every other output, whatever `pat` holds.
The bench around the ports is the model's (log entries 14, 17). -/
def Obligations.InvalidFormatRowShowsOnlyItsCode : Prop :=
  ∀ (st : State) (s e m : Nat) (ieee : Bool) (pat : Nat),
    s < 4 → e < 2 ^ st.params.ebw → m < 2 ^ st.params.mbw → pat < 2 ^ st.params.w →
    ¬ (s = 1 ∧ 1 ≤ e ∧ e ≤ st.params.expWMax ∧ m ≤ st.params.manWMax) → HostWaits st →
    Completes (.invalidFormat s e m ieee pat) st ⟨ieee, s, e, m, pat⟩ (fun o => ShowsError o 0b01)

/-- R82, R30, R22: INVALID_PATTERN completes with `err = 0b10` and 0 on every other output.
The bench around the ports is the model's (log entries 14, 17). -/
def Obligations.InvalidPatternRowShowsOnlyItsCode : Prop :=
  ∀ (s : State) (e m : Nat) (ieee : Bool) (pat : Nat),
    1 ≤ e → e ≤ s.params.expWMax → m ≤ s.params.manWMax → 2 ^ (1 + e + m) ≤ pat → pat < 2 ^ s.params.w →
    HostWaits s →
    Completes (.invalidPattern e m ieee pat) s ⟨ieee, 1, e, m, pat⟩ (fun o => ShowsError o 0b10)

/-! ### DECODE and the named formats -/

/-- R60, R61, R74: DECODE completes on every configuration and pattern that the ports carry, with the outcome of every
case of its pseudocode.
The bench around the ports is the model's (log entries 14, 17). -/
def Obligations.DecodeShowsEveryCase : Prop :=
  ∀ (st : State) (s e m : Nat) (ieee : Bool) (pat : Nat),
    s < 4 → e < 2 ^ st.params.ebw → m < 2 ^ st.params.mbw → pat < 2 ^ st.params.w → HostWaits st →
    let legal := s = 1 ∧ 1 ≤ e ∧ e ≤ st.params.expWMax ∧ m ≤ st.params.manWMax
    let S := pat.testBit (e + m)
    let E := pat / 2 ^ m % 2 ^ e
    let F := pat % 2 ^ m
    let bias : Int := 2 ^ (e - 1) - 1
    Completes (.decode s e m ieee pat) st ⟨ieee, s, e, m, pat⟩ (fun o =>
      (¬ legal → ShowsError o 0b01) ∧
      (legal → 2 ^ (1 + e + m) ≤ pat → ShowsError o 0b10) ∧
      (legal → pat < 2 ^ (1 + e + m) →
        (E = 0 → F = 0 → Shows o .zero ⟨S, E, F⟩ false 0 0) ∧
        (E = 0 → F ≠ 0 → ieee = false → Shows o .subnormal ⟨S, E, F⟩ S F (-bias)) ∧
        (E = 0 → F ≠ 0 → ieee = true → Shows o .subnormal ⟨S, E, F⟩ S F (1 - bias)) ∧
        (E ≠ 0 → E ≠ 2 ^ e - 1 → Shows o .normal ⟨S, E, F⟩ S (2 ^ m + F) (E - bias)) ∧
        (E = 2 ^ e - 1 → F = 0 → Shows o .inf ⟨S, E, F⟩ S 0 0) ∧
        (E = 2 ^ e - 1 → F ≠ 0 → Shows o .nan ⟨S, E, F⟩ false 0 0)))

/-- R49: each named format completes and is DECODE with `cfg_sign_bits = 1` and exactly its widths, on every part whose
ports carry those widths; wherever the host samples, the answers are the same.
The bench around the ports is the model's (log entries 14, 17). -/
def Obligations.NamedFormatsMeanTheirWidths : Prop :=
  let means (row : Bool → Nat → Instr) (e m : Nat) : Prop :=
    ∀ (s : State) (ieee : Bool) (pat : Nat), e < 2 ^ s.params.ebw → m < 2 ^ s.params.mbw → pat < 2 ^ s.params.w →
      exec (row ieee pat) s = exec (.decode 1 e m ieee pat) s ∧
      (HostWaits s → Completes (row ieee pat) s ⟨ieee, 1, e, m, pat⟩
        (fun o => ∃ i : Inputs s.params, readInputs i = ⟨ieee, 1, e, m, pat⟩ ∧ o = fpUnpack s.params i))
  means .e8m23 8 23 ∧ means .e8m7 8 7 ∧ means .e5m10 5 10 ∧ means .e4m3 4 3 ∧ means .e5m2 5 2 ∧ means .e2m1 2 1

/-- R60 to R69, R74, R81, R82: the case rules and the composed DECODE are one operation. In every state, settled or not,
each class row and each error row answers what DECODE answers on the input set the row drives. -/
def Obligations.ClassRowsAreDecode : Prop :=
  ∀ (s : State) (i : Instr), i.wf s.params = true → i.tag = 0 →
    exec i s = exec (.decode i.inWord.s i.inWord.e i.inWord.m i.inWord.ieee i.inWord.pat) s

/-! ### The block's function -/

/-- R62, R64 to R69, R70 to R73: the decoded value of every well-formed pattern and what every port then shows, from the
fields. -/
def Obligations.EveryClassHasItsValueAndPorts : Prop :=
  ∀ (P : Params) (i : Inputs P) (e m : Nat) (ieee S : Bool) (E F : Nat),
    1 ≤ e → e ≤ P.expWMax → m ≤ P.manWMax → E < 2 ^ e → F < 2 ^ m →
    readInputs i = ⟨ieee, 1, e, m, S.toNat * 2 ^ (e + m) + E * 2 ^ m + F⟩ →
    let bias : Int := 2 ^ (e - 1) - 1
    let o := fpUnpack P i
    (E = 0 → F = 0 → decodeValue i = .ok (.finite 0) ∧ Shows o .zero ⟨S, E, F⟩ false 0 0) ∧
    (E = 2 ^ e - 1 → F = 0 →
      decodeValue i = .ok (if S then .negInf else .posInf) ∧ Shows o .inf ⟨S, E, F⟩ S 0 0) ∧
    (E = 2 ^ e - 1 → F ≠ 0 → decodeValue i = .ok .nan ∧ Shows o .nan ⟨S, E, F⟩ false 0 0) ∧
    (E ≠ 0 → E ≠ 2 ^ e - 1 →
      decodeValue i = .ok (.finite ((-1) ^ S.toNat * (1 + (F : ℚ) / 2 ^ m) * (2 : ℚ) ^ ((E : Int) - bias))) ∧
      Shows o .normal ⟨S, E, F⟩ S (2 ^ m + F) (E - bias)) ∧
    (E = 0 → F ≠ 0 → ieee = false →
      decodeValue i = .ok (.finite ((-1) ^ S.toNat * (F : ℚ) * (2 : ℚ) ^ (-bias - (m : Int)))) ∧
      Shows o .subnormal ⟨S, E, F⟩ S F (-bias)) ∧
    (E = 0 → F ≠ 0 → ieee = true →
      decodeValue i = .ok (.finite ((-1) ^ S.toNat * (F : ℚ) * (2 : ℚ) ^ (1 - bias - (m : Int)))) ∧
      Shows o .subnormal ⟨S, E, F⟩ S F (1 - bias))

/-- R75, R83, R84: Decode is total. It answers a value exactly on a legal configuration with a well-formed pattern,
InvalidFormat exactly on an illegal configuration, and InvalidPattern exactly on a legal configuration with a 1 bit above
the pattern. -/
def Obligations.DecodeIsTotalWithTwoErrors : Prop :=
  ∀ (P : Params) (i : Inputs P),
    let x := readInputs i
    let legal := x.s = 1 ∧ 1 ≤ x.e ∧ x.e ≤ P.expWMax ∧ x.m ≤ P.manWMax
    (decodeValue i = .error .invalidFormat ↔ ¬ legal) ∧
    (decodeValue i = .error .invalidPattern ↔ legal ∧ 2 ^ (1 + x.e + x.m) ≤ x.pat) ∧
    ((∃ v, decodeValue i = .ok v) ↔ legal ∧ x.pat < 2 ^ (1 + x.e + x.m))

/-- R74, R90: the DecodedValue can be read back from the ports, and no output of the block reads as the fault of `0b11`. -/
def Obligations.PortsGiveBackTheDecodedValue : Prop :=
  ∀ (P : Params) (i : Inputs P), readBack (readInputs i).m (fpUnpack P i) = .ok (decodeValue i)

/-- R19, R20 (10_state.md): what `sig` and `exp` hold for every kind of result, and that for every non-zero finite result
value = (-1)^sign * sig * 2^(sext(exp) - m) exactly. -/
def Obligations.SigAndExpMakeTheValue : Prop :=
  ∀ (P : Params) (i : Inputs P),
    let x := readInputs i
    let o := fpUnpack P i
    let bias : Int := 2 ^ (x.e - 1) - 1
    o.sig.toNat < 2 ^ (x.m + 1) ∧
    (o.isNormal = true → o.sig.toNat = 2 ^ x.m + x.pat % 2 ^ x.m ∧ o.exp.toInt = (x.pat / 2 ^ x.m % 2 ^ x.e : Nat) - bias) ∧
    (o.isSubnormal = true → o.sig.toNat = x.pat % 2 ^ x.m ∧ o.exp.toInt = (if x.ieee then 1 - bias else -bias)) ∧
    (o.isNormal = false → o.isSubnormal = false → o.sig.toNat = 0 ∧ o.exp.toInt = 0) ∧
    (∀ q : ℚ, decodeValue i = .ok (.finite q) → q ≠ 0 →
      q = (-1) ^ o.sign.toNat * (o.sig.toNat : ℚ) * (2 : ℚ) ^ (o.exp.toInt - (x.m : Int)))

/-- R17: with no error exactly one class flag is 1, and the finite ones are exactly the finite results; with an error none
is. -/
def Obligations.ExactlyOneClassFlag : Prop :=
  ∀ (P : Params) (i : Inputs P),
    let o := fpUnpack P i
    (o.err = 0b00#2 →
      o.isZero.toNat + o.isSubnormal.toNat + o.isNormal.toNat + o.isInf.toNat + o.isNan.toNat = 1) ∧
    (o.err ≠ 0b00#2 →
      o.isZero.toNat + o.isSubnormal.toNat + o.isNormal.toNat + o.isInf.toNat + o.isNan.toNat = 0) ∧
    ((∃ q, decodeValue i = .ok (.finite q)) ↔ (o.isZero || o.isSubnormal || o.isNormal) = true)

/-- R16, R22, R90: what `err` encodes; on an error every other output is 0; 0b11 is never driven. -/
def Obligations.ErrNamesTheOutcome : Prop :=
  ∀ (P : Params) (i : Inputs P),
    let o := fpUnpack P i
    (o.err = 0b00#2 ↔ ∃ v, decodeValue i = .ok v) ∧
    (o.err = 0b01#2 ↔ decodeValue i = .error .invalidFormat) ∧
    (o.err = 0b10#2 ↔ decodeValue i = .error .invalidPattern) ∧
    o.err ≠ 0b11#2 ∧
    (o.err ≠ 0b00#2 → ShowsError o o.err)

/-- R18: `sign` is 1 exactly for a negative finite value and NegativeInfinity. -/
def Obligations.SignMeansNegative : Prop :=
  ∀ (P : Params) (i : Inputs P),
    (fpUnpack P i).sign = true ↔
      ((∃ q, decodeValue i = .ok (.finite q) ∧ q < 0) ∨ decodeValue i = .ok .negInf)

/-- R58 (40_format_spec.md): the exponents of a format with e >= 2 and of one with e = 1, and the range of every exponent
that the part can show. -/
def Obligations.ExponentRanges : Prop :=
  ∀ (P : Params) (i : Inputs P),
    let x := readInputs i
    let o := fpUnpack P i
    let bias : Int := 2 ^ (x.e - 1) - 1
    (o.isNormal = true → 2 ≤ x.e ∧ o.fExp.toNat ≤ 2 ^ x.e - 2 ∧
      1 - bias ≤ o.exp.toInt ∧ o.exp.toInt ≤ 2 ^ x.e - 2 - bias ∧
      2 - 2 ^ (x.e - 1) ≤ o.exp.toInt ∧ o.exp.toInt ≤ 2 ^ (x.e - 1) - 1) ∧
    (o.isSubnormal = true → o.exp.toInt = (if x.ieee then 2 - 2 ^ (x.e - 1) else 1 - 2 ^ (x.e - 1)) ∧
      (x.e = 1 → o.exp.toInt = (if x.ieee then 1 else 0))) ∧
    1 - 2 ^ (P.expWMax - 1) ≤ o.exp.toInt ∧ o.exp.toInt ≤ max (2 ^ (P.expWMax - 1) - 1) 1

/-- R21, R35: with no error the raw outputs are the three fields of the pattern, and with an error they are 0. -/
def Obligations.RawOutputsAreTheFields : Prop :=
  ∀ (P : Params) (i : Inputs P),
    let x := readInputs i
    let o := fpUnpack P i
    (o.err = 0b00#2 → o.fSign = x.pat.testBit (x.e + x.m) ∧ o.fExp.toNat = x.pat / 2 ^ x.m % 2 ^ x.e ∧
      o.fMan.toNat = x.pat % 2 ^ x.m) ∧
    (o.err ≠ 0b00#2 → o.fSign = false ∧ o.fExp.toNat = 0 ∧ o.fMan.toNat = 0)

/-- R41: the class flags by the table's conditions on the pattern, with its masks. -/
def Obligations.ClassFlagsByPatternMasks : Prop :=
  ∀ (P : Params) (i : Inputs P), (fpUnpack P i).err = 0b00#2 →
    let x := readInputs i
    let maskE := (2 ^ x.e - 1) * 2 ^ x.m
    let maskF := 2 ^ x.m - 1
    let o := fpUnpack P i
    (o.isZero = true ↔ x.pat &&& (maskE ||| maskF) = 0) ∧
    (o.isSubnormal = true ↔ x.pat &&& maskE = 0 ∧ x.pat &&& maskF ≠ 0) ∧
    (o.isNormal = true ↔ x.pat &&& maskE ≠ 0 ∧ x.pat &&& maskE ≠ maskE) ∧
    (o.isInf = true ↔ x.pat &&& (maskE ||| maskF) = maskE) ∧
    (o.isNan = true ↔ x.pat &&& maskE = maskE ∧ x.pat &&& maskF ≠ 0)

/-- R42: each class is one contiguous range of patterns with S = 0, and the same range moved up by `2^(T-1)` with S = 1. -/
def Obligations.ClassesAreContiguousRanges : Prop :=
  ∀ (P : Params) (i : Inputs P) (e m p : Nat) (ieee S : Bool),
    1 ≤ e → e ≤ P.expWMax → m ≤ P.manWMax → p < 2 ^ (e + m) →
    readInputs i = ⟨ieee, 1, e, m, S.toNat * 2 ^ (e + m) + p⟩ →
    let o := fpUnpack P i
    o.fSign = S ∧
    (o.isZero = true ↔ p = 0) ∧
    (o.isSubnormal = true ↔ 1 ≤ p ∧ p < 2 ^ m) ∧
    (o.isNormal = true ↔ 2 ^ m ≤ p ∧ p < (2 ^ e - 1) * 2 ^ m) ∧
    (o.isInf = true ↔ p = (2 ^ e - 1) * 2 ^ m) ∧
    (o.isNan = true ↔ (2 ^ e - 1) * 2 ^ m < p)

/-- R42: how many of the `2^T` patterns each class holds, over both signs. -/
def Obligations.ClassSizes : Prop :=
  ∀ (P : Params) (e m : Nat) (ieee : Bool), 1 ≤ e → e ≤ P.expWMax → m ≤ P.manWMax →
    let size (flag : Outputs P → Bool) : Nat :=
      ((Finset.range (2 ^ (1 + e + m))).filter
        (fun p => flag (fpUnpack P (levels P ⟨ieee, 1, e, m, p⟩)) = true)).card
    size Outputs.isZero = 2 ∧
    size Outputs.isSubnormal = 2 * (2 ^ m - 1) ∧
    size Outputs.isNormal = 2 * (2 ^ e - 2) * 2 ^ m ∧
    size Outputs.isInf = 2 ∧
    size Outputs.isNan = 2 * (2 ^ m - 1)

/-- R46, R47: with e = 1 the bias is 0, there is no normalized result and every finite one is zero or denormalized. With
m = 0 the mantissa field is 0, there is no denormalized result and no NaN, an all-ones exponent is an infinity, and a
normalized significand is 1. -/
def Obligations.NarrowFormatsLoseClasses : Prop :=
  ∀ (P : Params) (i : Inputs P),
    let x := readInputs i
    let o := fpUnpack P i
    (x.e = 1 → bias x.e = 0 ∧ o.isNormal = false ∧ (o.err = 0b00#2 → o.fExp.toNat = 0 ∨ o.fExp.toNat = 1) ∧
      ∀ q, decodeValue i = .ok (.finite q) → o.isZero = true ∨ o.isSubnormal = true) ∧
    (x.m = 0 → o.fMan.toNat = 0 ∧ o.isSubnormal = false ∧ o.isNan = false ∧
      (o.err = 0b00#2 → o.fExp.toNat = 2 ^ x.e - 1 → o.isInf = true) ∧
      (o.isNormal = true → o.sig.toNat = 1))

/-- R59: (1,1,0) has T = 2 and bias 0, no legal format has fewer bits, and its four patterns decode so on every part and in
both modes. -/
def Obligations.SmallestFormatDecodes : Prop :=
  ∀ (P : Params) (ieee : Bool),
    formatCheck P 1 1 0 = .ok { totalBits := 2, bias := 0 } ∧
    (∀ (s e m : Int) (c : FormatConsts), formatCheck P s e m = .ok c → 2 ≤ c.totalBits ∧ (c.totalBits = 2 → e = 1 ∧ m = 0)) ∧
    decodeValue (levels P ⟨ieee, 1, 1, 0, 0b00⟩) = .ok (.finite 0) ∧
    decodeValue (levels P ⟨ieee, 1, 1, 0, 0b01⟩) = .ok .posInf ∧
    decodeValue (levels P ⟨ieee, 1, 1, 0, 0b10⟩) = .ok (.finite 0) ∧
    decodeValue (levels P ⟨ieee, 1, 1, 0, 0b11⟩) = .ok .negInf

/-- R76: `denorm_ieee` changes only denormalized results, the value by a factor of 2 and `exp` by 1. -/
def Obligations.ModeChangesOnlySubnormals : Prop :=
  ∀ (P : Params) (i : Inputs P),
    let ref := { i with denormIeee := false }
    let alt := { i with denormIeee := true }
    ((fpUnpack P ref).isSubnormal = false → fpUnpack P alt = fpUnpack P ref ∧ decodeValue alt = decodeValue ref) ∧
    ((fpUnpack P ref).isSubnormal = true →
      (∃ q, decodeValue ref = .ok (.finite q) ∧ decodeValue alt = .ok (.finite (2 * q))) ∧
      (fpUnpack P alt).exp.toInt = (fpUnpack P ref).exp.toInt + 1 ∧
      { fpUnpack P alt with exp := (fpUnpack P ref).exp } = fpUnpack P ref)

/-- R77: with S = 0 the finite results strictly increase with the pattern, in either mode, and the pattern `2^(T-1) + p`
decodes to the negation of pattern p. -/
def Obligations.FiniteResultsIncreaseAndNegate : Prop :=
  ∀ (P : Params) (i j : Inputs P) (e m p q : Nat) (ieee : Bool),
    1 ≤ e → e ≤ P.expWMax → m ≤ P.manWMax → readInputs i = ⟨ieee, 1, e, m, p⟩ → p < (2 ^ e - 1) * 2 ^ m →
    (q < (2 ^ e - 1) * 2 ^ m → readInputs j = ⟨ieee, 1, e, m, q⟩ → p < q →
      ∃ a b : ℚ, decodeValue i = .ok (.finite a) ∧ decodeValue j = .ok (.finite b) ∧ a < b) ∧
    (readInputs j = ⟨ieee, 1, e, m, 2 ^ (e + m) + p⟩ →
      ∃ a : ℚ, decodeValue i = .ok (.finite a) ∧ decodeValue j = .ok (.finite (-a)))

/-- R79: the largest finite value and the smallest positive value of every legal format, each with the pattern that
decodes to it, and the symmetry of the finite values. -/
def Obligations.MagnitudeBounds : Prop :=
  ∀ (P : Params) (e m : Nat) (ieee : Bool), 1 ≤ e → e ≤ P.expWMax → m ≤ P.manWMax →
    let bias : Int := 2 ^ (e - 1) - 1
    let d : Int := if ieee then 1 - bias else -bias
    let value (p : Nat) := decodeValue (levels P ⟨ieee, 1, e, m, p⟩)
    let largest (p : Nat) (v : ℚ) : Prop := value p = .ok (.finite v) ∧ ∀ p' q, value p' = .ok (.finite q) → |q| ≤ v
    let smallest (p : Nat) (v : ℚ) : Prop :=
      value p = .ok (.finite v) ∧ ∀ p' q, value p' = .ok (.finite q) → q ≠ 0 → v ≤ |q|
    (2 ≤ e → largest ((2 ^ e - 2) * 2 ^ m + (2 ^ m - 1))
      ((2 ^ (m + 1) - 1) * (2 : ℚ) ^ ((2 : Int) ^ (e - 1) - 1 - m))) ∧
    (e = 1 → 1 ≤ m → largest (2 ^ m - 1) ((2 ^ m - 1) * (2 : ℚ) ^ (d - m))) ∧
    (e = 1 → m = 0 → largest 0 0) ∧
    (1 ≤ m → smallest 1 ((2 : ℚ) ^ (d - m))) ∧
    (m = 0 → 2 ≤ e → smallest 1 ((2 : ℚ) ^ (1 - bias))) ∧
    (2 ≤ e → value (2 ^ m) = .ok (.finite ((2 : ℚ) ^ (1 - bias))) ∧
      ∀ p' q, value p' = .ok (.finite q) →
        (fpUnpack P (levels P ⟨ieee, 1, e, m, p'⟩)).isNormal = true → (2 : ℚ) ^ (1 - bias) ≤ |q|) ∧
    (e = 1 → m = 0 → ∀ p' q, value p' = .ok (.finite q) → ¬ 0 < q) ∧
    (∀ p' q, value p' = .ok (.finite q) → ∃ p, value p = .ok (.finite (-q)))

/-! ### Runs -/

/-- R91, R92, R6 and the values the model chose (log entries 2, 4, 9): the reference part at power-up. Nothing is driven,
nothing has been sampled, and the levels are free draws. -/
def Obligations.ResetIsPowerUpOfTheReferencePart : Prop :=
  State.reset.params = Params.reference ∧
  State.reset.block.floating = Inputs.mask Params.reference true ∧
  State.reset.block.everDriven = false ∧ State.reset.block.stable = 0 ∧ State.reset.block.samples = [] ∧ State.reset.block.pending = [] ∧
  State.reset.block.inputs = Config.freeInputs Params.reference 0 ∧
  State.reset.block.outputs = Config.freeOutputs Params.reference 0

/-- The invariant holds at reset. -/
def Obligations.InvariantHoldsAtReset : Prop :=
  State.reset.Inv

/-- R24, R90, R94: every step keeps the invariant, from every state that meets it. Settled outputs and settled samples are
the function of their inputs whatever the host drives and however long it holds.
The bench around the ports is the model's (log entries 14, 17). -/
def Obligations.StepKeepsTheInvariant : Prop :=
  ∀ s t : State, s.Inv → step s = .next t → t.Inv

/-- Every row completes: a well-formed transaction for which the host waits answers a next state (R75, R98 "Nothing the host
may do stalls the block"). Its outputs are settled unless it is a FORMAT_CHECK before every input bit has been driven
(R92).
The bench around the ports is the model's (log entries 14, 17). -/
def Obligations.EveryTransactionCompletes : Prop :=
  ∀ (s : State) (i : Instr), i.wf s.params = true → HostWaits s →
    ∃ b : Block s.params, exec i s = .next (s.withBlock b) ∧
      (b.everDriven = true ↔ i.tag ≠ 1 ∨ s.block.everDriven = true ∨ b.floating = allDriven s.params) ∧
      (b.everDriven = true → b.settled = true ∧ b.outputs = fpUnpack s.params b.inputs ∧ b.outputs.err ≠ 0b11#2)

/-- Whatever a row does, the part, `T_PD`, the host's other transactions and its hold time stay, every earlier sample stays,
and at most one sample is added (R10, R99).
The bench around the ports is the model's (log entries 14, 17). -/
def Obligations.TransactionsLeaveTheRest : Prop :=
  ∀ (s t : State) (i : Instr), exec i s = .next t →
    ∃ b : Block s.params, t = s.withBlock b ∧ b.tPd = s.block.tPd ∧ b.pending = s.block.pending ∧
      b.hold = s.block.hold ∧ s.block.draws ≤ b.draws ∧
      (i.tag = 1 → b.samples = s.block.samples) ∧
      (i.tag ≠ 1 → b.floating = allDriven s.params ∧ b.everDriven = true ∧ readInputs b.inputs = i.inWord ∧
        b.samples = s.block.samples ++ [{ inputs := b.inputs, outputs := b.outputs, settled := b.settled }])

/-- R80, R84, R90: no row stops on an error outcome. The only fault is a sample of `err = 0b11`, and only when the host has
not waited; the only refusal is of a transaction that is not well-formed on this part (log entry 6). -/
def Obligations.RowsStopOnlyForEarlySamplesAndIllFormedRows : Prop :=
  ∀ (s : State) (i : Instr),
    (∀ r, exec i s = .fault r → r = .reservedErr ∧ i.wf s.params = true ∧ i.tag ≠ 1 ∧ ¬ HostWaits s) ∧
    (∀ r, exec i s = .refused r → r = .illFormed ∧ i.wf s.params = false) ∧
    (i.wf s.params = false → exec i s = .refused .illFormed)

/-- R94, R90 (log entry 15, the model's choice): a sample inside the settling window shows a free draw, or stops when that draw shows `err = 0b11`.
R99: it leaves the end state as it was. -/
def Obligations.EarlySampleIsAFreeDraw : Prop :=
  ∀ (s : State) (i : Instr) (inp : Inputs s.params), i.wf s.params = true → i.tag ≠ 1 →
    readInputs inp = i.inWord → s.block.stableAfter inp < s.block.tPd →
    let drawn := Config.freeOutputs s.params s.block.draws
    (drawn.err = 0b11#2 → exec i s = .fault .reservedErr) ∧
    (drawn.err ≠ 0b11#2 → ∃ b : Block s.params, exec i s = .next (s.withBlock b) ∧
      b.inputs = inp ∧ b.outputs = drawn ∧ b.draws = s.block.draws + 1 ∧ b.stable = s.block.stableAfter inp ∧
      b.samples = s.block.samples ++ [{ inputs := inp, outputs := drawn, settled := false }] ∧
      b.endState = s.block.endState)

/-- R94: "From then until the next input change, the outputs equal fpUnpack of the current inputs": inputs that already
stand settled need no further wait, so driving the same input set again completes at once (log entry 10). -/
def Obligations.SameInputsNeedNoFurtherWait : Prop :=
  ∀ (s : State) (i : Instr), i.wf s.params = true → i.tag ≠ 1 →
    s.block.floating = allDriven s.params → readInputs s.block.inputs = i.inWord → s.block.settled = true →
    exec i s = .next (s.sampled s.block.inputs (fpUnpack s.params s.block.inputs))

/-- R24, R25, R86, R96, R97: identical inputs give an identical settled sample, whatever came before, whatever `T_PD` is, and
however long the host waited beyond it.
The bench around the ports is the model's (log entries 14, 17). -/
def Obligations.SettledSamplesDependOnInputsAlone : Prop :=
  ∀ (P : Params) (a b : Block P) (i : Instr), i.wf P = true → i.tag ≠ 1 → a.tPd ≤ a.hold → b.tPd ≤ b.hold →
    ∃ (a' b' : Block P) (x : Sample P),
      exec i ⟨P, a⟩ = .next ⟨P, a'⟩ ∧ exec i ⟨P, b⟩ = .next ⟨P, b'⟩ ∧
      a'.samples = a.samples ++ [x] ∧ b'.samples = b.samples ++ [x] ∧
      a'.inputs = b'.inputs ∧ a'.outputs = b'.outputs

/-- R86, R25: an error in one transaction has no effect on the next: the sample after it is the one taken without it.
The bench around the ports is the model's (log entries 14, 17). -/
def Obligations.EarlierErrorLeavesNoTrace : Prop :=
  ∀ (s : State) (bad i : Instr) (b : Block s.params), i.wf s.params = true → i.tag ≠ 1 → HostWaits s →
    bad.wf s.params = true → exec bad s = .next (s.withBlock b) → b.outputs.err ≠ 0b00#2 →
    ∃ (c d : Block s.params) (x : Sample s.params),
      exec i (s.withBlock b) = .next (s.withBlock c) ∧ exec i s = .next (s.withBlock d) ∧
      c.samples = b.samples ++ [x] ∧ d.samples = s.block.samples ++ [x] ∧ c.outputs = d.outputs

/-- R99: what each row adds to the end state. A FORMAT_CHECK adds nothing, and neither does a sample taken within a settling
window; a settled sample adds the function of the inputs on the ports, however long the host waited beyond `T_PD`.
The bench around the ports is the model's (log entries 14, 17). -/
def Obligations.EndStateGainsOnlySettledSamples : Prop :=
  ∀ (s t : State) (i : Instr), exec i s = .next t →
    ∃ b : Block s.params, t = s.withBlock b ∧
      (i.tag = 1 → b.endState = s.block.endState) ∧
      (i.tag ≠ 1 → b.settled = false → b.endState = s.block.endState) ∧
      (i.tag ≠ 1 → b.settled = true →
        b.endState = s.block.endState ++ [fpUnpack s.params (inputsOf s.params i)])

/-- R99: the end state of a sequence of transactions for which the host waits is the list of its samples, each the function
of the input set its transaction drives, in order.
The bench around the ports is the model's (log entries 14, 17). -/
def Obligations.RunEndsInTheListOfSamples : Prop :=
  ∀ (s : State) (is : List Instr) (holds : List Nat),
    s.block.pending = List.zipWith (fun i h => { word := encode s.params i, hold := h }) is holds →
    is.length = holds.length → (∀ i ∈ is, i.wf s.params = true ∧ i.tag ≠ 1) → (∀ h ∈ holds, s.block.tPd ≤ h) →
    ∃ b : Block s.params, Sys2Proof.core.run is.length s = .next (s.withBlock b) ∧ b.pending = [] ∧
      b.samples = s.block.samples ++
        is.map (fun i =>
          { inputs := inputsOf s.params i, outputs := fpUnpack s.params (inputsOf s.params i), settled := true }) ∧
      b.endState = s.block.endState ++ is.map (fun i => fpUnpack s.params (inputsOf s.params i))
end

