-- ==== Sys2Proof/Laws/Widths.lean ====
section
/-! SUPPORT. Facts about port widths: the ceiling logarithm, and that every legal width fits its port. -/

namespace Sys2Proof

theorem le_two_pow_clog2 (n : Nat) : n ≤ 2 ^ clog2 n := by
  unfold clog2
  split
  · simpa
  · have := Nat.lt_log2_self (n := n - 1)
    omega

theorem two_pow_lt_of_lt_clog2 {n k : Nat} (h : k < clog2 n) : 2 ^ k < n := by
  unfold clog2 at h
  split at h
  · omega
  · have h1 := Nat.log2_self_le (n := n - 1) (by omega)
    have h2 : 2 ^ k ≤ 2 ^ Nat.log2 (n - 1) := Nat.pow_le_pow_right (by decide) (by omega)
    omega

theorem Params.legal_iff {P : Params} {e m : Nat} :
    P.legal e m = true ↔ 1 ≤ e ∧ e ≤ P.expWMax ∧ m ≤ P.manWMax := by
  simp [Params.legal, and_assoc]

theorem Params.expWidth_fits {P : Params} {e : Nat} (h : e ≤ P.expWMax) : e < 2 ^ P.ebw :=
  Nat.lt_of_lt_of_le (Nat.lt_succ_of_le h) (le_two_pow_clog2 _)

theorem Params.manWidth_fits {P : Params} {m : Nat} (h : m ≤ P.manWMax) : m < 2 ^ P.mbw :=
  Nat.lt_of_lt_of_le (Nat.lt_of_lt_of_le (Nat.lt_succ_of_le h) (le_two_pow_clog2 _))
    (Nat.pow_le_pow_right (by decide) (Nat.le_max_right _ _))

theorem Params.cfgFits_iff {P : Params} {s e m : Nat} :
    P.cfgFits s e m = true ↔ s < 4 ∧ e < 2 ^ P.ebw ∧ m < 2 ^ P.mbw := by
  simp [Params.cfgFits, and_assoc, sbw]

theorem Params.patFits_iff {P : Params} {pat : Nat} : P.patFits pat = true ↔ pat < 2 ^ P.w := by
  simp [Params.patFits]

theorem Params.cfgFits_of_legal {P : Params} {e m : Nat} (h : P.legal e m = true) : P.cfgFits 1 e m = true := by
  obtain ⟨-, he, hm⟩ := Params.legal_iff.1 h
  exact Params.cfgFits_iff.2 ⟨by decide, Params.expWidth_fits he, Params.manWidth_fits hm⟩

/-- R56: a legal format is no wider than the bus. -/
theorem Params.totalBits_le_w {P : Params} {e m : Nat} (h : P.legal e m = true) : 1 + e + m ≤ P.w := by
  obtain ⟨-, he, hm⟩ := Params.legal_iff.1 h
  simp only [Params.w]
  omega

theorem formatValid_iff {P : Params} {s e m : Int} :
    formatValid P s e m = true ↔ s = 1 ∧ 1 ≤ e ∧ 0 ≤ m ∧ e ≤ P.expWMax ∧ m ≤ P.manWMax := by
  simp [formatValid, and_assoc]

/-- R39 and R51 say the same of values read from unsigned ports. -/
theorem formatValid_iff_legal {P : Params} {s e m : Nat} :
    formatValid P s e m = true ↔ s = 1 ∧ P.legal e m = true := by
  rw [formatValid_iff, Params.legal_iff]
  omega

theorem illegal_iff_not_formatValid {P : Params} {s e m : Nat} :
    P.illegal s e m = true ↔ formatValid P s e m = false := by
  have h := formatValid_iff_legal (P := P) (s := s) (e := e) (m := m)
  cases hv : formatValid P s e m <;> simp [Params.illegal, hv] at h ⊢ <;> tauto

end Sys2Proof
end

