-- ==== Sys2Proof/Laws/Fields.lean ====
section
/-! SUPPORT. Facts about bit fields: taking a number apart and putting it together are inverse, for patterns (R35) and
for the packed input word (R40). -/

namespace Sys2Proof

theorem bits_zero_right (v n : Nat) : bits v 0 n = v % 2 ^ n := by
  simp [bits]

theorem bits_lt (v lo n : Nat) : bits v lo n < 2 ^ n :=
  Nat.mod_lt _ (Nat.two_pow_pos n)

/-- A field below which `x` stands. -/
theorem bits_mul_add {a x k lo n : Nat} (hx : x < 2 ^ k) (hk : k ≤ lo) :
    bits (a * 2 ^ k + x) lo n = bits a (lo - k) n := by
  obtain ⟨d, rfl⟩ := Nat.exists_eq_add_of_le hk
  simp only [bits, Nat.add_sub_cancel_left]
  rw [Nat.pow_add, ← Nat.div_div_eq_div_mul, Nat.add_comm, Nat.add_mul_div_right _ _ (Nat.two_pow_pos k),
    Nat.div_eq_of_lt hx, Nat.zero_add]

theorem bits_mul_add_low {a x k : Nat} (hx : x < 2 ^ k) : bits (a * 2 ^ k + x) 0 k = x := by
  rw [bits_zero_right, Nat.add_comm, Nat.add_mul_mod_self_right, Nat.mod_eq_of_lt hx]

theorem bits_one_eq_one_toNat (v lo : Nat) : (decide (bits v lo 1 = 1)).toNat = bits v lo 1 := by
  have := bits_lt v lo 1
  by_cases h : bits v lo 1 = 1
  · simp [h]
  · simp only [h, decide_false, Bool.toNat_false]
    omega

theorem div_two_pow_eq (v k n : Nat) : v / 2 ^ k = v / 2 ^ (k + n) * 2 ^ n + bits v k n := by
  rw [bits, Nat.pow_add, ← Nat.div_div_eq_div_mul]
  exact (Nat.div_add_mod' _ _).symm

/-! ### Patterns -/

theorem patOf_lt {e m : Nat} {S : Bool} {E F : Nat} (hE : E < 2 ^ e) (hF : F < 2 ^ m) :
    patOf e m S E F < 2 ^ (1 + e + m) := by
  have hS : S.toNat ≤ 1 := Bool.toNat_le S
  have h1 : S.toNat * 2 ^ e ≤ 1 * 2 ^ e := Nat.mul_le_mul_right _ hS
  have h2 : S.toNat * 2 ^ e + E + 1 ≤ 2 ^ (1 + e) := by rw [Nat.pow_add]; omega
  have h3 : (S.toNat * 2 ^ e + E + 1) * 2 ^ m ≤ 2 ^ (1 + e) * 2 ^ m := Nat.mul_le_mul_right _ h2
  rw [Nat.pow_add 2 (1 + e) m]
  unfold patOf
  rw [Nat.add_mul _ 1] at h3
  omega

theorem patFields_patOf {e m : Nat} {S : Bool} {E F : Nat} (hE : E < 2 ^ e) (hF : F < 2 ^ m) :
    patFields e m (patOf e m S E F) = ⟨S, E, F⟩ := by
  have hS : bits (patOf e m S E F) (e + m) 1 = S.toNat := by
    rw [patOf, bits_mul_add hF (by omega), Nat.add_sub_cancel, bits_mul_add hE (Nat.le_refl e), Nat.sub_self,
      bits_zero_right]
    cases S <;> rfl
  have hE' : bits (patOf e m S E F) m e = E := by
    rw [patOf, bits_mul_add hF (Nat.le_refl m), Nat.sub_self, bits_mul_add_low hE]
  rw [patFields, hS, hE', patOf, bits_mul_add_low hF]
  cases S <;> rfl

theorem patFields_lt (e m pat : Nat) : (patFields e m pat).E < 2 ^ e ∧ (patFields e m pat).F < 2 ^ m :=
  ⟨bits_lt _ _ _, bits_lt _ _ _⟩

theorem patOf_patFields {e m pat : Nat} (h : pat < 2 ^ (1 + e + m)) :
    patOf e m (patFields e m pat).S (patFields e m pat).E (patFields e m pat).F = pat := by
  have hz : pat / 2 ^ (1 + e + m) = 0 := Nat.div_eq_of_lt h
  have h1 : pat / 2 ^ (e + m) = bits pat (e + m) 1 := by
    have := div_two_pow_eq pat (e + m) 1
    rw [show e + m + 1 = 1 + e + m by omega, hz] at this
    omega
  have h2 := div_two_pow_eq pat m e
  have h3 := div_two_pow_eq pat 0 m
  rw [Nat.add_comm m e, h1] at h2
  rw [Nat.zero_add, h2] at h3
  simp only [patFields, patOf, bits_one_eq_one_toNat]
  simpa using h3.symm

theorem patOf_zero_iff {e m : Nat} {S : Bool} {E F : Nat} :
    patOf e m S E F = 0 ↔ S = false ∧ E = 0 ∧ F = 0 := by
  cases S <;> simp [patOf]

/-! ### The packed input word -/

/-- The fields of an input set fit their ports. -/
def InWord.fits (P : Params) (x : InWord) : Prop :=
  x.s < 2 ^ sbw ∧ x.e < 2 ^ P.ebw ∧ x.m < 2 ^ P.mbw ∧ x.pat < 2 ^ P.w

theorem unpackIn_packIn {P : Params} {x : InWord} (h : x.fits P) : unpackIn P (packIn P x) = x := by
  obtain ⟨hs, he, hm, hp⟩ := h
  obtain ⟨ieee, s, e, m, pat⟩ := x
  simp only at hs he hm hp
  have b1 : ∀ {lo n}, P.w ≤ lo → bits (packIn P ⟨ieee, s, e, m, pat⟩) lo n
      = bits (((ieee.toNat * 2 ^ sbw + s) * 2 ^ P.ebw + e) * 2 ^ P.mbw + m) (lo - P.w) n :=
    fun h => bits_mul_add hp h
  have b2 : ∀ {lo n}, P.mbw ≤ lo → bits (((ieee.toNat * 2 ^ sbw + s) * 2 ^ P.ebw + e) * 2 ^ P.mbw + m) lo n
      = bits ((ieee.toNat * 2 ^ sbw + s) * 2 ^ P.ebw + e) (lo - P.mbw) n :=
    fun h => bits_mul_add hm h
  have b3 : ∀ {lo n}, P.ebw ≤ lo → bits ((ieee.toNat * 2 ^ sbw + s) * 2 ^ P.ebw + e) lo n
      = bits (ieee.toNat * 2 ^ sbw + s) (lo - P.ebw) n :=
    fun h => bits_mul_add he h
  have hb5 : bits (packIn P ⟨ieee, s, e, m, pat⟩) (P.w + P.mbw + P.ebw + sbw) 1 = ieee.toNat := by
    rw [b1 (by omega), b2 (by omega), b3 (by omega), bits_mul_add hs (by omega),
      show P.w + P.mbw + P.ebw + sbw - P.w - P.mbw - P.ebw - sbw = 0 by omega, bits_zero_right]
    cases ieee <;> rfl
  have hb4 : bits (packIn P ⟨ieee, s, e, m, pat⟩) (P.w + P.mbw + P.ebw) sbw = s := by
    rw [b1 (by omega), b2 (by omega), b3 (by omega),
      show P.w + P.mbw + P.ebw - P.w - P.mbw - P.ebw = 0 by omega, bits_mul_add_low hs]
  have hb3 : bits (packIn P ⟨ieee, s, e, m, pat⟩) (P.w + P.mbw) P.ebw = e := by
    rw [b1 (by omega), b2 (by omega), show P.w + P.mbw - P.w - P.mbw = 0 by omega, bits_mul_add_low he]
  have hb2 : bits (packIn P ⟨ieee, s, e, m, pat⟩) P.w P.mbw = m := by
    rw [b1 (by omega), Nat.sub_self, bits_mul_add_low hm]
  have hb1 : bits (packIn P ⟨ieee, s, e, m, pat⟩) 0 P.w = pat := bits_mul_add_low hp
  rw [unpackIn, hb1, hb2, hb3, hb4, hb5]
  cases ieee <;> rfl

theorem unpackIn_fits (P : Params) (v : Nat) : (unpackIn P v).fits P :=
  ⟨bits_lt _ _ _, bits_lt _ _ _, bits_lt _ _ _, bits_lt _ _ _⟩

/-- Bits above `IN` do not reach its fields. -/
theorem packIn_unpackIn (P : Params) (v : Nat) : packIn P (unpackIn P v) = v % 2 ^ P.inw := by
  have h0 := div_two_pow_eq v 0 P.w
  have h1 := div_two_pow_eq v P.w P.mbw
  have h2 := div_two_pow_eq v (P.w + P.mbw) P.ebw
  have h3 := div_two_pow_eq v (P.w + P.mbw + P.ebw) sbw
  have h4 := div_two_pow_eq v (P.w + P.mbw + P.ebw + sbw) 1
  have hw : P.w + P.mbw + P.ebw + sbw + 1 = P.inw := by simp only [Params.inw, sbw]; omega
  rw [hw] at h4
  rw [h4] at h3
  rw [h3] at h2
  rw [h2] at h1
  rw [Nat.zero_add, h1, Nat.pow_zero, Nat.div_one] at h0
  have hd := Nat.div_add_mod' v (2 ^ P.inw)
  have hp : packIn P (unpackIn P v) + v / 2 ^ P.inw * 2 ^ P.inw = v := by
    conv_rhs => rw [h0]
    simp only [packIn, unpackIn, bits_one_eq_one_toNat]
    rw [← hw]
    ring
  omega

theorem packIn_lt {P : Params} {x : InWord} (h : x.fits P) : packIn P x < 2 ^ P.inw := by
  have h1 := packIn_unpackIn P (packIn P x)
  rw [unpackIn_packIn h] at h1
  rw [h1]
  exact Nat.mod_lt _ (Nat.two_pow_pos _)

end Sys2Proof
end

