-- ==== Sys2Proof/Laws/PerInstr.lean ====
section
/-! SUPPORT. Statements made of every transaction as syntax, one lemma for each constructor. Family `FitsPorts`: the input set
of a well-formed transaction fits the ports, so it has a place in `IN` (R12, R40). -/

namespace Sys2Proof.Laws.FitsPorts

/-- The input set that a well-formed transaction drives fits the ports of the part. -/
def Statement (i : Instr) : Prop :=
  ∀ P : Params, i.wf P = true → i.inWord.fits P

theorem fits_of_legal {P : Params} {e m pat : Nat} {ieee : Bool} (h : P.legal e m = true)
    (hp : pat < 2 ^ (1 + e + m)) : InWord.fits P ⟨ieee, 1, e, m, pat⟩ := by
  obtain ⟨-, he, hm⟩ := Params.cfgFits_iff.1 (Params.cfgFits_of_legal h)
  exact ⟨Nat.one_lt_two_pow (by decide), he, hm, Nat.lt_of_lt_of_le hp (Nat.pow_le_pow_right (by decide) (Params.totalBits_le_w h))⟩

theorem fits_of_fits {P : Params} {s e m pat : Nat} {ieee : Bool} (h : P.cfgFits s e m = true)
    (hp : P.patFits pat = true) : InWord.fits P ⟨ieee, s, e, m, pat⟩ := by
  obtain ⟨hs, he, hm⟩ := Params.cfgFits_iff.1 h
  exact ⟨hs, he, hm, Params.patFits_iff.1 hp⟩

theorem allOnesExp_lt (e : Nat) : allOnesExp e < 2 ^ e :=
  Nat.sub_lt (Nat.two_pow_pos e) (by decide)

theorem formatCheck (s e m : Nat) (ieee : Bool) : Statement (.formatCheck s e m ieee) := fun P h =>
  fits_of_fits h (Params.patFits_iff.2 (Nat.two_pow_pos P.w))

theorem decode (s e m : Nat) (ieee : Bool) (pat : Nat) : Statement (.decode s e m ieee pat) := fun P h => by
  simp only [Instr.wf, Bool.and_eq_true] at h
  exact fits_of_fits h.1 h.2

theorem zero (e m : Nat) (ieee S : Bool) : Statement (.zero e m ieee S) := fun _ h =>
  fits_of_legal h (patOf_lt (Nat.two_pow_pos e) (Nat.two_pow_pos m))

theorem subnormalRef (e m : Nat) (S : Bool) (F : Nat) : Statement (.subnormalRef e m S F) := fun P h => by
  simp only [Instr.wf, Bool.and_eq_true, decide_eq_true_eq] at h
  exact fits_of_legal h.1.1 (patOf_lt (Nat.two_pow_pos e) h.2)

theorem subnormalIeee (e m : Nat) (S : Bool) (F : Nat) : Statement (.subnormalIeee e m S F) := fun P h => by
  simp only [Instr.wf, Bool.and_eq_true, decide_eq_true_eq] at h
  exact fits_of_legal h.1.1 (patOf_lt (Nat.two_pow_pos e) h.2)

theorem normal (e m : Nat) (ieee S : Bool) (E F : Nat) : Statement (.normal e m ieee S E F) := fun P h => by
  simp only [Instr.wf, Bool.and_eq_true, decide_eq_true_eq] at h
  exact fits_of_legal h.1.1.1 (patOf_lt (by omega) h.2)

theorem infPos (e m : Nat) (ieee : Bool) : Statement (.infPos e m ieee) := fun _ h =>
  fits_of_legal h (patOf_lt (allOnesExp_lt e) (Nat.two_pow_pos m))

theorem infNeg (e m : Nat) (ieee : Bool) : Statement (.infNeg e m ieee) := fun _ h =>
  fits_of_legal h (patOf_lt (allOnesExp_lt e) (Nat.two_pow_pos m))

theorem nan (e m : Nat) (ieee S : Bool) (F : Nat) : Statement (.nan e m ieee S F) := fun P h => by
  simp only [Instr.wf, Bool.and_eq_true, decide_eq_true_eq] at h
  exact fits_of_legal h.1.1 (patOf_lt (allOnesExp_lt e) h.2)

theorem invalidFormat (s e m : Nat) (ieee : Bool) (pat : Nat) : Statement (.invalidFormat s e m ieee pat) := fun P h => by
  simp only [Instr.wf, Bool.and_eq_true] at h
  exact fits_of_fits h.1.1 h.1.2

theorem invalidPattern (e m : Nat) (ieee : Bool) (pat : Nat) : Statement (.invalidPattern e m ieee pat) := fun P h => by
  simp only [Instr.wf, Bool.and_eq_true] at h
  exact fits_of_fits (Params.cfgFits_of_legal h.1.1) h.1.2

theorem of_named {P : Params} {e m pat : Nat} {ieee : Bool} (h : (P.cfgFits 1 e m && P.patFits pat) = true) :
    InWord.fits P ⟨ieee, 1, e, m, pat⟩ := by
  rw [Bool.and_eq_true] at h
  exact fits_of_fits h.1 h.2

theorem e8m23 (ieee : Bool) (pat : Nat) : Statement (.e8m23 ieee pat) := fun _ h => of_named h
theorem e8m7 (ieee : Bool) (pat : Nat) : Statement (.e8m7 ieee pat) := fun _ h => of_named h
theorem e5m10 (ieee : Bool) (pat : Nat) : Statement (.e5m10 ieee pat) := fun _ h => of_named h
theorem e4m3 (ieee : Bool) (pat : Nat) : Statement (.e4m3 ieee pat) := fun _ h => of_named h
theorem e5m2 (ieee : Bool) (pat : Nat) : Statement (.e5m2 ieee pat) := fun _ h => of_named h
theorem e2m1 (ieee : Bool) (pat : Nat) : Statement (.e2m1 ieee pat) := fun _ h => of_named h

end Sys2Proof.Laws.FitsPorts
end

