-- ==== Sys2Proof/Laws/State.lean ====
section
/-! SUPPORT. What each shared operation does to each field of a block, and what a transaction can answer. -/

namespace Sys2Proof.Machine

namespace Block

variable {P : Params} (b : Block P) (i : Inputs P) (o : Outputs P) (t : Nat)

/-! ### drive -/

@[simp] theorem drive_tPd : (b.drive i).tPd = b.tPd := rfl
@[simp] theorem drive_inputs : (b.drive i).inputs = i := rfl
@[simp] theorem drive_floating : (b.drive i).floating = allDriven P := rfl
@[simp] theorem drive_everDriven : (b.drive i).everDriven = true := rfl
@[simp] theorem drive_outputs : (b.drive i).outputs = b.outputs := rfl
@[simp] theorem drive_pending : (b.drive i).pending = b.pending := rfl
@[simp] theorem drive_hold : (b.drive i).hold = b.hold := rfl
@[simp] theorem drive_samples : (b.drive i).samples = b.samples := rfl
@[simp] theorem drive_draws : (b.drive i).draws = b.draws := rfl

/-! ### redraw -/

@[simp] theorem redraw_tPd : b.redraw.tPd = b.tPd := by unfold redraw; split <;> rfl
@[simp] theorem redraw_floating : b.redraw.floating = b.floating := by unfold redraw; split <;> rfl
@[simp] theorem redraw_everDriven : b.redraw.everDriven = b.everDriven := by unfold redraw; split <;> rfl
@[simp] theorem redraw_outputs : b.redraw.outputs = b.outputs := by unfold redraw; split <;> rfl
@[simp] theorem redraw_pending : b.redraw.pending = b.pending := by unfold redraw; split <;> rfl
@[simp] theorem redraw_hold : b.redraw.hold = b.hold := by unfold redraw; split <;> rfl
@[simp] theorem redraw_samples : b.redraw.samples = b.samples := by unfold redraw; split <;> rfl

/-- With nothing floating there is nothing to draw. -/
theorem redraw_of_driven (h : b.floating = allDriven P) : b.redraw = b := if_pos h

/-! ### driveFormat -/

@[simp] theorem driveFormat_tPd : (b.driveFormat i).tPd = b.tPd := by simp [driveFormat]
@[simp] theorem driveFormat_inputs : (b.driveFormat i).inputs = { i with pat := b.redraw.inputs.pat } := rfl
@[simp] theorem driveFormat_floating : (b.driveFormat i).floating = { allDriven P with pat := b.floating.pat } := by
  simp [driveFormat]
@[simp] theorem driveFormat_outputs : (b.driveFormat i).outputs = b.outputs := by simp [driveFormat]
@[simp] theorem driveFormat_pending : (b.driveFormat i).pending = b.pending := by simp [driveFormat]
@[simp] theorem driveFormat_hold : (b.driveFormat i).hold = b.hold := by simp [driveFormat]
@[simp] theorem driveFormat_samples : (b.driveFormat i).samples = b.samples := by simp [driveFormat]

/-! ### settleFor -/

@[simp] theorem settleFor_tPd : (b.settleFor t o).tPd = b.tPd := by unfold settleFor; split <;> rfl
@[simp] theorem settleFor_inputs : (b.settleFor t o).inputs = b.inputs := by unfold settleFor; split <;> rfl
@[simp] theorem settleFor_floating : (b.settleFor t o).floating = b.floating := by unfold settleFor; split <;> rfl
@[simp] theorem settleFor_everDriven : (b.settleFor t o).everDriven = b.everDriven := by unfold settleFor; split <;> rfl
@[simp] theorem settleFor_stable : (b.settleFor t o).stable = b.stable + t := by unfold settleFor; split <;> rfl
@[simp] theorem settleFor_pending : (b.settleFor t o).pending = b.pending := by unfold settleFor; split <;> rfl
@[simp] theorem settleFor_hold : (b.settleFor t o).hold = b.hold := by unfold settleFor; split <;> rfl
@[simp] theorem settleFor_samples : (b.settleFor t o).samples = b.samples := by unfold settleFor; split <;> rfl

/-- R92, R94: after the wait the outputs are settled exactly when the inputs are driven and `T_PD` is reached. -/
theorem settleFor_settled : (b.settleFor t o).settled = (b.everDriven && decide (b.tPd ≤ b.stable + t)) := by
  simp [settled]

theorem settleFor_outputs_of_settled (h : (b.settleFor t o).settled = true) : (b.settleFor t o).outputs = o := by
  rw [settleFor_settled, Bool.and_eq_true, decide_eq_true_eq] at h
  simp [settleFor, h]

theorem settleFor_outputs_of_unsettled (h : (b.settleFor t o).settled = false) :
    (b.settleFor t o).outputs = Config.freeOutputs P b.draws := by
  have h' : ¬ (b.everDriven = true ∧ b.tPd ≤ b.stable + t) := by
    rw [settleFor_settled] at h
    simpa using h
  simp [settleFor, h']

theorem settleFor_draws : (b.settleFor t o).draws = if (b.settleFor t o).settled then b.draws else b.draws + 1 := by
  simp only [settleFor_settled, Bool.and_eq_true, decide_eq_true_eq]
  unfold settleFor
  split <;> rfl

/-! ### endState -/

/-- R99: a settled sample joins the end state, and any other sample leaves it alone. -/
theorem endState_append {b' : Block P} {x : Sample P} (h : b'.samples = b.samples ++ [x]) :
    b'.endState = b.endState ++ if x.settled then [x.outputs] else [] := by
  simp only [endState, h, List.filter_append, List.map_append]
  cases hx : x.settled <;> simp [hx]

@[simp] theorem drive_endState : (b.drive i).endState = b.endState := rfl
@[simp] theorem redraw_endState : b.redraw.endState = b.endState := by simp [endState]
@[simp] theorem driveFormat_endState : (b.driveFormat i).endState = b.endState := by simp [endState]
@[simp] theorem settleFor_endState : (b.settleFor t o).endState = b.endState := by simp [endState]

/-! ### sample -/

/-- Everything a sample can answer. -/
theorem sample_cases : (b.outputs.err = 0b11#2 ∧ b.sample = .fault .reservedErr) ∨
    (b.outputs.err ≠ 0b11#2 ∧ b.sample =
      .next { b with samples := b.samples ++ [⟨b.inputs, b.outputs, b.settled⟩] }) := by
  unfold sample
  split
  · exact .inl ⟨‹_›, rfl⟩
  · exact .inr ⟨‹_›, rfl⟩

end Block

namespace State

@[simp] theorem withBlock_params (s : State) (b : Block s.params) : (s.withBlock b).params = s.params := rfl
@[simp] theorem withBlock_block (s : State) (b : Block s.params) : (s.withBlock b).block = b := rfl
@[simp] theorem withBlock_withBlock (s : State) (b b' : Block s.params) :
    (s.withBlock b).withBlock b' = s.withBlock b' := rfl

/-- Everything a format selection can answer. -/
theorem select_cases (s : State) (i : Instr) :
    (i.wf s.params = true ∧
      s.select i = .next (s.withBlock (s.block.formatTransaction (inputsOf s.params i)))) ∨
    (i.wf s.params = false ∧ s.select i = .refused .illFormed) := by
  unfold select
  cases h : i.wf s.params <;> simp

/-- Everything a decode transaction can answer. -/
theorem transact_cases (s : State) (i : Instr) (o : Outputs s.params) :
    (i.wf s.params = false ∧ s.transact i o = .refused .illFormed) ∨
    (i.wf s.params = true ∧
      let b := (s.block.drive (inputsOf s.params i)).settleFor s.block.hold o
      (b.outputs.err = 0b11#2 ∧ s.transact i o = .fault .reservedErr) ∨
      (b.outputs.err ≠ 0b11#2 ∧ s.transact i o =
        .next (s.withBlock { b with samples := b.samples ++ [⟨b.inputs, b.outputs, b.settled⟩] }))) := by
  unfold transact Block.decodeTransaction
  cases h : i.wf s.params
  · simp
  · refine .inr ⟨rfl, ?_⟩
    rcases Block.sample_cases ((s.block.drive (inputsOf s.params i)).settleFor s.block.hold o) with ⟨h1, h2⟩ | ⟨h1, h2⟩
    · exact .inl ⟨h1, by simp [h2]⟩
    · exact .inr ⟨h1, by simp [h2]⟩

end State

/-- Everything a step can do: hold, run the decoded transaction, or refuse a word that spells none. -/
theorem step_cases (s : State) :
    (s.block.pending = [] ∧ step s = .next (s.withBlock s.block.idle)) ∨
    ∃ t rest, s.block.pending = t :: rest ∧
      ((∃ i, decode s.params t.word = .ok i ∧
          step s = exec i (s.withBlock { s.block with pending := rest, hold := t.hold })) ∨
       (∃ why, decode s.params t.word = .error why ∧ step s = .refused (.noTransaction why))) := by
  unfold step Block.fetch
  cases hp : s.block.pending with
  | nil => exact .inl ⟨rfl, rfl⟩
  | cons t rest =>
    refine .inr ⟨t, rest, rfl, ?_⟩
    cases hd : decode s.params t.word with
    | ok i => exact .inl ⟨i, rfl, by simp [hd]⟩
    | error why => exact .inr ⟨why, rfl, by simp [hd]⟩

end Sys2Proof.Machine
end

