-- ==== Sys2Proof/Laws/Values.lean ====
section
/-! SUPPORT. One lemma for each function of the block: exact values, reading ports, the format check, the decode. -/

namespace Sys2Proof.Machine

/-! ### Exact arithmetic -/

theorem dyadic_eq (k j : Int) : dyadic k j = (k : ℚ) * (2 : ℚ) ^ j := by
  unfold dyadic
  split
  · obtain ⟨n, rfl⟩ := Int.eq_ofNat_of_zero_le ‹0 ≤ j›
    simp
  · obtain ⟨n, hn⟩ := Int.eq_ofNat_of_zero_le (show 0 ≤ -j by omega)
    obtain rfl : j = -(n : Int) := by omega
    rw [Rat.mkRat_eq_div]
    simp [div_eq_mul_inv]

theorem dyadic_eq_zero_iff {k j : Int} : dyadic k j = 0 ↔ k = 0 := by
  rw [dyadic_eq]
  simp [zpow_ne_zero]

theorem signed_eq_zero_iff {S : Bool} {k : Nat} : signed S k = 0 ↔ k = 0 := by
  cases S <;> simp [signed]

theorem signed_cast (S : Bool) (k : Nat) : ((signed S k : Int) : ℚ) = (-1) ^ S.toNat * k := by
  cases S <;> simp [signed]

theorem sigI_zero (m F : Nat) : sigI m 0 F = F := by
  simp [sigI]

theorem sigI_pos {E : Nat} (m F : Nat) (h : E ≠ 0) : sigI m E F = 2 ^ m + F := by
  simp [sigI, h]

theorem sigI_eq_zero_iff {m E F : Nat} : sigI m E F = 0 ↔ E = 0 ∧ F = 0 := by
  have := Nat.two_pow_pos m
  by_cases h : E = 0 <;> simp [sigI, h]

theorem sigI_lt {m E F : Nat} (h : F < 2 ^ m) : sigI m E F < 2 ^ (m + 1) := by
  rw [Nat.pow_succ]
  unfold sigI
  split <;> omega

/-! ### Reading and building input sets -/

theorem readInputs_levels {P : Params} {x : InWord} (h : x.fits P) : readInputs (levels P x) = x := by
  obtain ⟨hs, he, hm, hp⟩ := h
  simp [readInputs, levels, Nat.mod_eq_of_lt, hs, he, hm, hp]

theorem levels_readInputs {P : Params} (i : Inputs P) : levels P (readInputs i) = i := by
  simp [readInputs, levels]

theorem readInputs_fits {P : Params} (i : Inputs P) : (readInputs i).fits P :=
  ⟨i.cfgSignBits.isLt, i.cfgExpBits.isLt, i.cfgManBits.isLt, i.pat.isLt⟩

/-! ### The block's function -/

theorem formatCheck_valid {P : Params} {e m : Nat} (h : P.legal e m = true) :
    formatCheck P (1 : Nat) e m = .ok { totalBits := 1 + e + m, bias := bias e } := by
  have hv : formatValid P (1 : Nat) e m = true := formatValid_iff_legal.2 ⟨rfl, h⟩
  rw [formatCheck, if_pos hv]
  congr 2

theorem formatCheck_invalid {P : Params} {s e m : Int} (h : formatValid P s e m = false) :
    formatCheck P s e m = .error .invalidFormat := by
  simp [formatCheck, h]

/-- R60 without its early return for the all-zero pattern, which "changes no result" (R62). -/
def decodeFields (e m : Nat) (ieee : Bool) (f : Fields) : DecodedValue :=
  if f.E = allOnesExp e then
    if f.F = 0 then (if f.S then .negInf else .posInf) else .nan
  else .finite (dyadic (signed f.S (sigI m f.E f.F)) (exponentOf e ieee f.E - m))

theorem decodeValue_invalidFormat {P : Params} {i : Inputs P}
    (h : formatValid P (readInputs i).s (readInputs i).e (readInputs i).m = false) :
    decodeValue i = .error .invalidFormat := by
  simp [decodeValue, formatCheck_invalid h]

theorem decodeValue_invalidPattern {P : Params} {i : Inputs P} (hs : (readInputs i).s = 1)
    (hl : P.legal (readInputs i).e (readInputs i).m = true)
    (hp : 2 ^ (1 + (readInputs i).e + (readInputs i).m) ≤ (readInputs i).pat) :
    decodeValue i = .error .invalidPattern := by
  have : (readInputs i).pat / 2 ^ (1 + (readInputs i).e + (readInputs i).m) ≠ 0 :=
    (Nat.div_pos hp (Nat.two_pow_pos _)).ne'
  simp only [decodeValue, hs, formatCheck_valid hl]
  rw [if_pos this]

theorem allOnesExp_pos {e : Nat} (h : 1 ≤ e) : 0 < allOnesExp e := by
  have := Nat.pow_lt_pow_right (a := 2) (by decide) (show 0 < e by omega)
  simp only [allOnesExp]
  omega

theorem patFields_zero (e m : Nat) : patFields e m 0 = ⟨false, 0, 0⟩ := by
  simp [patFields, bits]

theorem decodeValue_wellFormed {P : Params} {i : Inputs P} (hs : (readInputs i).s = 1)
    (hl : P.legal (readInputs i).e (readInputs i).m = true)
    (hp : (readInputs i).pat < 2 ^ (1 + (readInputs i).e + (readInputs i).m)) :
    decodeValue i = .ok (decodeFields (readInputs i).e (readInputs i).m (readInputs i).ieee
      (patFields (readInputs i).e (readInputs i).m (readInputs i).pat)) := by
  have hd : ¬ (readInputs i).pat / 2 ^ (1 + (readInputs i).e + (readInputs i).m) ≠ 0 := by
    rw [Nat.div_eq_of_lt hp]
    simp
  have he := allOnesExp_pos (Params.legal_iff.1 hl).1
  simp only [decodeValue, hs, formatCheck_valid hl]
  rw [if_neg hd, Nat.mod_eq_of_lt hp]
  by_cases hz : (readInputs i).pat = 0
  · rw [if_pos hz, hz, patFields_zero]
    simp [decodeFields, he.ne, sigI, signed, dyadic_eq]
  · rw [if_neg hz]
    simp only [decodeFields]
    split <;> [split; skip] <;> rfl

/-- R74 for the three kinds of input set. -/
theorem fpUnpack_invalidFormat {P : Params} {i : Inputs P}
    (h : formatValid P (readInputs i).s (readInputs i).e (readInputs i).m = false) :
    fpUnpack P i = errorOutputs P .invalidFormat := by
  simp only [fpUnpack, decodeValue_invalidFormat h]

theorem fpUnpack_invalidPattern {P : Params} {i : Inputs P} (hs : (readInputs i).s = 1)
    (hl : P.legal (readInputs i).e (readInputs i).m = true)
    (hp : 2 ^ (1 + (readInputs i).e + (readInputs i).m) ≤ (readInputs i).pat) :
    fpUnpack P i = errorOutputs P .invalidPattern := by
  simp only [fpUnpack, decodeValue_invalidPattern hs hl hp]

/-- The output map by class (R70 to R73), from the fields of a well-formed pattern. -/
def classOutputs (P : Params) (e m : Nat) (ieee : Bool) (f : Fields) : Outputs P :=
  if f.E = allOnesExp e then
    if f.F = 0 then infOutputs P f.S f.S f.E f.F else nanOutputs P f.S f.E f.F
  else if f.E = 0 then
    if f.F = 0 then zeroOutputs P f.S f.E f.F
    else subnormalOutputs P f.S f.E f.F f.F (exponentOf e ieee f.E)
  else normalOutputs P f.S f.E f.F (2 ^ m + f.F) (exponentOf e ieee f.E)

theorem fpUnpack_wellFormed {P : Params} {i : Inputs P} (hs : (readInputs i).s = 1)
    (hl : P.legal (readInputs i).e (readInputs i).m = true)
    (hp : (readInputs i).pat < 2 ^ (1 + (readInputs i).e + (readInputs i).m)) :
    fpUnpack P i = classOutputs P (readInputs i).e (readInputs i).m (readInputs i).ieee
      (patFields (readInputs i).e (readInputs i).m (readInputs i).pat) := by
  simp only [fpUnpack, decodeValue_wellFormed hs hl hp]
  generalize patFields (readInputs i).e (readInputs i).m (readInputs i).pat = f
  obtain ⟨S, E, F⟩ := f
  by_cases hE : E = allOnesExp (readInputs i).e
  · by_cases hF : F = 0
    · cases S <;> simp [decodeFields, classOutputs, hE, hF]
    · simp [decodeFields, classOutputs, hE, hF]
  · simp only [decodeFields, classOutputs, hE, if_false, dyadic_eq_zero_iff, signed_eq_zero_iff, sigI_eq_zero_iff]
    by_cases hE0 : E = 0
    · by_cases hF : F = 0 <;> simp [hE0, hF, sigI_zero]
    · simp [hE0, sigI_pos _ _ hE0]

end Sys2Proof.Machine
end

