-- ==== Sys2Proof/Tests/Slice0.lean ====
section
/-! SUPPORT. The model's own tests: the well-formedness smoke, words written out from the spec's encodings, one-transaction
runs whose expected outputs are rows of 95_test_vectors.md, and for each obligation with hypotheses a state and operands
that meet them. -/

namespace Sys2Proof.Tests.Slice0

open Sys2Proof.Machine

/-! ### Helpers -/

/-- A part that carries no more than (1,2,1). -/
def narrow : Params := ⟨2, 1, by decide⟩

/-- The least part: it carries (1,1,0) alone. -/
def least : Params := ⟨1, 0, by decide⟩

/-- The reference part with every input bit driven at `x` for `stable` units of a `T_PD` of 1, and a host that holds its
inputs for `hold`. -/
def bench (x : InWord) (stable hold : Nat) : State :=
  { params := Params.reference
    block :=
      { tPd := 1
        inputs := levels _ x
        floating := allDriven _
        everDriven := true
        stable := stable
        outputs := fpUnpack _ (levels _ x)
        pending := []
        hold := hold
        samples := []
        draws := 1 } }

/-- The E4M3 pattern 0x38, which decodes to 1. -/
def one : InWord := ⟨false, 1, 4, 3, 0x38⟩

/-- The state with transactions still to do. -/
def withPending (s : State) (ts : List Transaction) : State :=
  s.withBlock { s.block with pending := ts }

/-- A row of 95_test_vectors.md: `err`, the class flags in port order from `is_zero`, `sign`, `sig`, `exp` and the raw
fields. -/
structure Row where
  err : Nat
  flags : List Bool
  sign : Bool
  sig : Nat
  exp : Int
  fSign : Bool
  fExp : Nat
  fMan : Nat
  deriving DecidableEq, Repr

def rowOf {P : Params} (o : Outputs P) : Row :=
  ⟨o.err.toNat, [o.isZero, o.isSubnormal, o.isNormal, o.isInf, o.isNan], o.sign, o.sig.toNat, o.exp.toInt, o.fSign,
    o.fExp.toNat, o.fMan.toNat⟩

def zeroRow (fSign : Bool) : Row := ⟨0, [true, false, false, false, false], false, 0, 0, fSign, 0, 0⟩
def subRow (sign : Bool) (sig : Nat) (exp : Int) (fMan : Nat) : Row :=
  ⟨0, [false, true, false, false, false], sign, sig, exp, sign, 0, fMan⟩
def normRow (sign : Bool) (sig : Nat) (exp : Int) (fExp fMan : Nat) : Row :=
  ⟨0, [false, false, true, false, false], sign, sig, exp, sign, fExp, fMan⟩
def infRow (sign : Bool) (fExp : Nat) : Row := ⟨0, [false, false, false, true, false], sign, 0, 0, sign, fExp, 0⟩
def nanRow (fSign : Bool) (fExp fMan : Nat) : Row := ⟨0, [false, false, false, false, true], false, 0, 0, fSign, fExp, fMan⟩
def errRow (code : Nat) : Row := ⟨code, [false, false, false, false, false], false, 0, 0, false, 0, 0⟩

/-- The samples of the next state, newest first, as rows with their settled marks. -/
def taken : Host.Outcome State Fault Refusal → Option (List (Row × Bool))
  | .next t => some (t.block.samples.reverse.map fun x => (rowOf x.outputs, x.settled))
  | _ => none

/-- The samples after the one step that runs `word` from reset. -/
def runs (word : Nat) : Option (List (Row × Bool)) :=
  taken (step (State.reset.withFetchWord 48 word))

/-- What the ports show in the next state. -/
def shown : Host.Outcome State Fault Refusal → Option Row
  | .next t => some (rowOf t.block.outputs)
  | _ => none

/-- The constants of the format selected in the next state. -/
def selected : Host.Outcome State Fault Refusal → Option (Except DecodeError FormatConsts)
  | .next t => some t.block.format
  | _ => none

/-- Whether the outcome is the fault or refusal. -/
def isFault : Host.Outcome State Fault Refusal → Option Fault
  | .fault r => some r
  | _ => none

def isRefusal : Host.Outcome State Fault Refusal → Option Refusal
  | .refused r => some r
  | _ => none

/-! ### Well-formedness: an ill-formed term for each check -/

theorem test_wf_sign_width_off_port : (Instr.formatCheck 4 4 3 false).wf Params.reference = false := by decide
theorem test_wf_exp_width_off_port : (Instr.decode 1 16 3 false 0).wf Params.reference = false := by decide
theorem test_wf_man_width_off_port : (Instr.formatCheck 1 4 32 true).wf Params.reference = false := by decide
theorem test_wf_pattern_off_bus : (Instr.decode 1 4 3 false (2 ^ 32)).wf Params.reference = false := by decide
theorem test_wf_exp_width_zero : (Instr.zero 0 3 false false).wf Params.reference = false := by decide
theorem test_wf_exp_width_above_limit : (Instr.infPos 9 3 false).wf Params.reference = false := by decide
theorem test_wf_man_width_above_limit : (Instr.infNeg 4 24 false).wf Params.reference = false := by decide
theorem test_wf_subnormal_with_zero_mantissa : (Instr.subnormalRef 4 3 false 0).wf Params.reference = false := by decide
theorem test_wf_subnormal_mantissa_too_wide : (Instr.subnormalIeee 4 3 false 8).wf Params.reference = false := by decide
theorem test_wf_normal_exponent_zero : (Instr.normal 4 3 false false 0 7).wf Params.reference = false := by decide
theorem test_wf_normal_exponent_reserved : (Instr.normal 4 3 false false 15 7).wf Params.reference = false := by decide
theorem test_wf_normal_mantissa_too_wide : (Instr.normal 4 3 false false 1 8).wf Params.reference = false := by decide
theorem test_wf_nan_with_zero_mantissa : (Instr.nan 4 3 false true 0).wf Params.reference = false := by decide
theorem test_wf_nan_mantissa_too_wide : (Instr.nan 4 3 false true 8).wf Params.reference = false := by decide
theorem test_wf_invalid_format_that_is_legal : (Instr.invalidFormat 1 4 3 false 0).wf Params.reference = false := by decide
theorem test_wf_invalid_pattern_that_fits : (Instr.invalidPattern 4 3 false 0xFF).wf Params.reference = false := by decide
theorem test_wf_named_formats_off_ports :
    ([.e8m23 false 0, .e8m7 false 0, .e5m10 false 0, .e4m3 false 0, .e5m2 false 0] : List Instr).map (·.wf narrow) =
      [false, false, false, false, false] ∧ (Instr.e2m1 false 0).wf least = false := by decide
theorem test_wf_named_patterns_off_bus :
    ([.e8m23 true, .e8m7 true, .e5m10 true, .e4m3 true, .e5m2 true, .e2m1 true] : List (Nat → Instr)).map
      (fun row => (row (2 ^ 32)).wf Params.reference) = [false, false, false, false, false, false] := by decide

/-! ### Decoding: words written out from R40 (`IN` = ieee, sign 2, exponent 4, mantissa 5, pattern 32) and the tags -/

-- 0 01 0100 00011, then S 0000 000 with S = 1
theorem test_decode_zero : decode Params.reference 0b0_01_0100_00011_000000000000000000000000_1_0000_000 =
    .ok (.zero 4 3 false true) := by decide
theorem test_decode_subnormal_ref : decode Params.reference 0b0_01_0100_00011_000000000000000000000000_0_0000_111 =
    .ok (.subnormalRef 4 3 false 7) := by decide
theorem test_decode_subnormal_ieee : decode Params.reference 0b1_01_0100_00011_000000000000000000000000_1_0000_001 =
    .ok (.subnormalIeee 4 3 true 1) := by decide
theorem test_decode_normal : decode Params.reference 0b0_01_0100_00011_000000000000000000000000_1_1110_111 =
    .ok (.normal 4 3 false true 14 7) := by decide
theorem test_decode_infinities : decode Params.reference 0b0_01_0100_00011_000000000000000000000000_0_1111_000 =
    .ok (.infPos 4 3 false) ∧ decode Params.reference 0b1_01_0100_00011_000000000000000000000000_1_1111_000 =
    .ok (.infNeg 4 3 true) := by decide
theorem test_decode_nan : decode Params.reference 0b0_01_0100_00011_000000000000000000000000_1_1111_001 =
    .ok (.nan 4 3 false true 1) := by decide
-- exponent width 9, above the limit of 8; sign widths 0 and 3
theorem test_decode_invalid_format : decode Params.reference 0b0_01_1001_00011_00000000000000000000000000000000 =
    .ok (.invalidFormat 1 9 3 false 0) ∧ decode Params.reference 0x08300000000 = .ok (.invalidFormat 0 4 3 false 0) ∧
    decode Params.reference 0x68300000000 = .ok (.invalidFormat 3 4 3 false 0) := by decide
-- T = 8: the first bit above the pattern; and T = 31 with the last bit of the bus
theorem test_decode_invalid_pattern : decode Params.reference 0b0_01_0100_00011_000000000000000000000001_00000000 =
    .ok (.invalidPattern 4 3 false 0x100) ∧
    decode Params.reference 0x31680000000 = .ok (.invalidPattern 8 22 false 0x80000000) := by decide
theorem test_decode_format_check : decode Params.reference 0b0001_0_01_0100_00011_00000000000000000000000000000000 =
    .ok (.formatCheck 1 4 3 false) ∧ decode Params.reference 0b0001_1_01_0100_00011_00000000000000000000000000000000 =
    .ok (.formatCheck 1 4 3 true) := by decide
theorem test_decode_decode : decode Params.reference 0b0010_1_10_1111_11111_10000000000000000000000000000001 =
    .ok (.decode 2 15 31 true 0x80000001) := by decide
-- the prefixes of the six aliases: 0x317, 0x307, 0x2AA, 0x283, 0x2A2 and 0x241, or with bit 43 set for `.ieee`
theorem test_decode_named : ([0x3_3173F800000, 0x4_3070000C040, 0x5_AAA00000001, 0x6_283000000FF, 0x7_2A20000007B,
    0x8_A4100000001] : List Nat).map (decode Params.reference) =
    [.ok (.e8m23 false 0x3F800000), .ok (.e8m7 false 0xC040), .ok (.e5m10 true 1), .ok (.e4m3 false 0xFF),
      .ok (.e5m2 false 0x7B), .ok (.e2m1 true 1)] := by decide
-- a tag beyond 8; a FORMAT_CHECK that drives the first or the last bit of `pat`; an alias with other widths
theorem test_decode_rejects : ([0x9_28300000000, 0x1_28300000001, 0x1_28380000000, 0x6_2A200000000, 0x3_11700000000] :
    List Nat).map (decode Params.reference) = [.error .unknownTag, .error .strayBits, .error .strayBits,
      .error .otherFormat, .error .otherFormat] := by decide
theorem test_encode_words : ([.normal 4 3 false false 14 7, .infNeg 8 23 true, .invalidPattern 4 3 false 0x138,
    .formatCheck 1 4 3 true, .decode 1 4 3 true 7, .e2m1 false 5] : List Instr).map (encode Params.reference) =
    [0x28300000077, 0xB17FF800000, 0x28300000138, 0x1_A8300000000, 0x2_A8300000007, 0x8_24100000005] := by decide
-- with 1 + 2 + EBW 2 + MBW 1 + W 4 bits the narrow part reads the same fields elsewhere
theorem test_decode_narrow : decode narrow 0b0_01_10_1_0101 = .ok (.normal 2 1 false false 2 1) ∧
    decode least 0b0_01_1_0_11 = .ok (.infNeg 1 0 false) := by decide
theorem test_decode_table_word : decodeTableWord 44 0x28300000077 = some (.normal 4 3 false false 14 7) ∧
    decodeTableWord 48 0x9_28300000000 = none := by decide

/-! ### One transaction each, from reset: the rows of 95_test_vectors.md sections 2.1 to 2.5 -/

theorem test_zero : runs 0x28300000080 = some [(zeroRow true, true)] := by decide
theorem test_zero_smallest_format : runs 0x22000000000 = some [(zeroRow false, true)] := by decide
theorem test_subnormal_ref : runs 0x317007FFFFF = some [(subRow false 8388607 (-127) 8388607, true)] := by decide
theorem test_subnormal_ref_one_bit_exponent : runs 0x22200000003 = some [(subRow false 3 0 3, true)] := by decide
theorem test_subnormal_ieee : runs 0xA8300000081 = some [(subRow true 1 (-6) 1, true)] := by decide
theorem test_subnormal_ieee_one_bit_exponent : runs 0xA2200000001 = some [(subRow false 1 1 1, true)] := by decide
theorem test_normal : runs 0x31740490FDB = some [(normRow false 13176795 1 128 4788187, true)] := by decide
theorem test_normal_least_exponent : runs 0x31700800000 = some [(normRow false 8388608 (-126) 1 0, true)] := by decide
theorem test_inf_pos : runs 0x28300000078 = some [(infRow false 15, true)] := by decide
theorem test_inf_neg : runs 0x317FF800000 = some [(infRow true 255, true)] := by decide
theorem test_nan_of_either_sign : runs 0x2830000007F = some [(nanRow false 15 7, true)] ∧
    runs 0x317FFC00000 = some [(nanRow true 255 4194304, true)] := by decide
theorem test_invalid_format_wins : runs 0x2030000FFFF = some [(errRow 1, true)] := by decide
theorem test_invalid_format_wide_mantissa : runs 0x29800000000 = some [(errRow 1, true)] := by decide
theorem test_invalid_pattern : runs 0x28300000100 = some [(errRow 2, true)] := by decide
theorem test_invalid_pattern_top_bit : runs 0x31680000000 = some [(errRow 2, true)] := by decide
theorem test_decode_row : runs 0x2_3177F7FFFFF = some [(normRow false 16777215 127 254 8388607, true)] := by decide
theorem test_decode_row_refused_sign : runs 0x2_48300000000 = some [(errRow 1, true)] := by decide
theorem test_e8m23 : runs 0x3_317C0000000 = some [(normRow true 8388608 1 128 0, true)] := by decide
theorem test_e8m7 : runs 0x4_3070000C040 = some [(normRow true 192 1 128 64, true)] := by decide
theorem test_e5m10 : runs 0x5_2AA00003555 = some [(normRow false 1365 (-2) 13 341, true)] := by decide
theorem test_e4m3 : runs 0x6_283000000B9 = some [(normRow true 9 0 7 1, true)] := by decide
theorem test_e5m2 : runs 0x7_2A20000007B = some [(normRow false 7 15 30 3, true)] := by decide
theorem test_e2m1_both_modes : runs 0x8_24100000009 = some [(subRow true 1 (-1) 1, true)] ∧
    runs 0x8_A4100000009 = some [(subRow true 1 0 1, true)] := by decide
-- W5: (1,4,3) has T = 8 and bias 7, and nothing is sampled
theorem test_format_check : selected (step (State.reset.withFetchWord 48 0x1_28300000000)) = some (.ok ⟨8, 7⟩) ∧
    runs 0x1_28300000000 = some [] := by decide
-- the mode selected over the pattern that stands: program P2 step 2, without a sample
theorem test_format_check_selects_the_mode :
    shown (exec (.formatCheck 1 4 3 true) (bench ⟨false, 1, 4, 3, 0x07⟩ 1 1)) = some (subRow false 7 (-6) 7) ∧
    taken (exec (.formatCheck 1 4 3 true) (bench ⟨false, 1, 4, 3, 0x07⟩ 1 1)) = some [] := by decide
-- R99: a sample taken within a settling window is not in the end state
theorem test_end_state :
    ({ (bench one 1 1).block with
        samples := [⟨levels _ one, zeros _, false⟩, ⟨levels _ one, fpUnpack _ (levels _ one), true⟩] } :
      Block Params.reference).endState.map rowOf = [normRow false 8 0 7 0] := by decide

/-! ### Decoded values, exactly -/

theorem test_value_normal : decodeValue (levels Params.reference ⟨false, 1, 8, 23, 0x40490FDB⟩) =
    .ok (.finite (mkRat 13176795 (2 ^ 22))) := by decide
theorem test_value_subnormal : decodeValue (levels Params.reference ⟨false, 1, 4, 3, 0x81⟩) =
    .ok (.finite (mkRat (-1) (2 ^ 10))) ∧ decodeValue (levels Params.reference ⟨true, 1, 4, 3, 0x81⟩) =
    .ok (.finite (mkRat (-1) (2 ^ 9))) := by decide
theorem test_format_check_negative_width : formatCheck Params.reference 1 4 (-1) = .error .invalidFormat ∧
    formatCheck Params.reference 1 1 0 = .ok ⟨2, 0⟩ ∧ formatCheck Params.reference 1 8 23 = .ok ⟨32, 127⟩ := by decide

/-! ### Stops -/

theorem test_unknown_word_refused :
    isRefusal (step (State.reset.withFetchWord 48 0x9_28300000000)) = some (.noTransaction .unknownTag) := by decide
theorem test_ill_formed_refused : isRefusal (exec (.subnormalRef 4 3 false 8) State.reset) = some .illFormed := by decide
theorem test_reserved_code_is_a_fault :
    isFault (match ({ (bench one 1 1).block with outputs := { zeros _ with err := 0b11#2 } } : Block _).sample with
      | .next b => .next ((bench one 1 1).withBlock b)
      | .fault r => .fault r
      | .refused r => .refused r) = some .reservedErr := by decide

/-! ### Witnesses: what meets the hypotheses of each obligation, at the ends of their ranges -/

/-- The part at power-up with a host that samples at once. -/
def early : State :=
  State.reset.withBlock { State.reset.block with hold := 0 }

/-- The configuration and the mode driven, the pattern floating. -/
def halfDriven : State :=
  State.reset.withBlock
    { State.reset.block with floating := { allDriven _ with pat := (Inputs.mask Params.reference true).pat } }

/-- Once driven, then left to float. -/
def floatsAgain : State :=
  (bench one 1 1).withBlock { (bench one 1 1).block with floating := Inputs.mask _ true }

theorem witness_in_word_layout : (⟨true, 3, 15, 31, 2 ^ 32 - 1⟩ : InWord).s < 4 ∧
    (⟨true, 3, 15, 31, 2 ^ 32 - 1⟩ : InWord).e < 16 ∧ (⟨true, 3, 15, 31, 2 ^ 32 - 1⟩ : InWord).m < 32 ∧
    (⟨true, 3, 15, 31, 2 ^ 32 - 1⟩ : InWord).pat < 2 ^ 32 := by decide

/-- DecodeOfEncode, ClassRowsAreDecode, EveryTransactionCompletes: well-formed rows at the ends of their ranges. -/
theorem witness_well_formed_rows : ([.zero 1 0 true true, .subnormalRef 8 23 true (2 ^ 23 - 1), .subnormalIeee 1 1 false 1,
    .normal 2 0 false false 1 0, .normal 8 23 true true 254 (2 ^ 23 - 1), .infPos 1 0 false, .infNeg 8 23 true,
    .nan 1 1 false false 1, .nan 8 23 true true (2 ^ 23 - 1), .invalidFormat 0 0 0 false 0,
    .invalidFormat 3 15 31 true (2 ^ 32 - 1), .invalidPattern 1 0 false 4, .invalidPattern 8 22 true (2 ^ 32 - 1),
    .formatCheck 0 0 0 false, .formatCheck 3 15 31 true, .decode 0 0 0 false 0, .decode 3 15 31 true (2 ^ 32 - 1),
    .e8m23 true (2 ^ 32 - 1), .e8m7 false 0, .e5m10 true 0, .e4m3 false (2 ^ 32 - 1), .e5m2 true 0, .e2m1 false 0] :
    List Instr).all (·.wf Params.reference) = true := by decide

theorem witness_encode_of_decode : decode Params.reference 0x283000000B9 = .ok (.normal 4 3 false true 7 1) := by decide

theorem witness_every_input_word : (⟨true, 3, 1, 1, 3⟩ : InWord).s < 4 ∧ (⟨true, 3, 1, 1, 3⟩ : InWord).e < 2 ^ least.ebw ∧
    (⟨true, 3, 1, 1, 3⟩ : InWord).m < 2 ^ least.mbw ∧ (⟨true, 3, 1, 1, 3⟩ : InWord).pat < 2 ^ least.w := by decide

theorem witness_step_runs :
    (withPending (bench one 1 1) [⟨0x28300000080, 5⟩, ⟨0, 0⟩]).block.pending = [⟨0x28300000080, 5⟩, ⟨0, 0⟩] ∧
    decode (bench one 1 1).params 0x28300000080 = .ok (.zero 4 3 false true) ∧
    decode State.reset.params (0x1_28300000000 % 2 ^ 48) = .ok (.formatCheck 1 4 3 false) := by decide

theorem witness_step_refuses :
    (withPending (bench one 1 1) [⟨0x1_28300000001, 5⟩]).block.pending = [⟨0x1_28300000001, 5⟩] ∧
    decode (bench one 1 1).params 0x1_28300000001 = .error .strayBits := by decide

/-- IdleStepHoldsTheInputs: each of its clauses. Driven and just settled; driven, still settling; never driven; floating
again after it was driven. -/
theorem witness_idle :
    ((bench one 0 1).block.pending = [] ∧ (bench one 0 1).block.floating = allDriven _ ∧
      (bench one 0 1).block.everDriven = true ∧ (bench one 0 1).block.tPd ≤ (bench one 0 1).block.idle.stable) ∧
    (State.reset.block.pending = [] ∧ State.reset.block.floating ≠ allDriven _ ∧ State.reset.block.everDriven = false) ∧
    (floatsAgain.block.pending = [] ∧ floatsAgain.block.floating ≠ allDriven _ ∧ floatsAgain.block.everDriven = true ∧
      floatsAgain.block.tPd ≤ floatsAgain.block.idle.stable) := by decide

theorem witness_idle_still_settling :
    let s : State := (bench one 0 1).withBlock { (bench one 0 1).block with tPd := 2 }
    s.block.pending = [] ∧ s.block.floating = allDriven _ ∧ s.block.everDriven = true ∧ s.block.idle.stable < s.block.tPd := by
  decide

/-- FormatCheckAnswersTheLegalFormats, at the ends of the legal widths and one past each. -/
theorem witness_format_check :
    ([(1, 1, 0), (1, 8, 23)] : List (Int × Int × Int)).all
      (fun f => f.1 = 1 ∧ 1 ≤ f.2.1 ∧ 0 ≤ f.2.2 ∧ f.2.1 ≤ Params.reference.expWMax ∧ f.2.2 ≤ Params.reference.manWMax) = true ∧
    ([(0, 1, 0), (2, 1, 0), (1, 0, 0), (1, 9, 0), (1, 1, -1), (1, 1, 24)] : List (Int × Int × Int)).all
      (fun f => ¬ (f.1 = 1 ∧ 1 ≤ f.2.1 ∧ 0 ≤ f.2.2 ∧ f.2.1 ≤ Params.reference.expWMax ∧ f.2.2 ≤ Params.reference.manWMax)) =
      true := by decide

theorem witness_valid_format_bounds :
    formatCheck Params.reference (1 : Nat) (1 : Nat) (0 : Nat) = .ok ⟨2, 0⟩ ∧
    formatCheck Params.reference (1 : Nat) (8 : Nat) (23 : Nat) = .ok ⟨32, 127⟩ := by decide

/-- ConfigurationPortsHoldEveryLegalWidth: the ports of the reference part, R7, and one too few bits. -/
theorem witness_configuration_ports : Params.reference.expWMax < 2 ^ 4 ∧ Params.reference.manWMax < 2 ^ 5 ∧
    ¬ Params.reference.expWMax < 2 ^ 3 ∧ ¬ Params.reference.manWMax < 2 ^ 4 := by decide

/-- FormatCheckSelectsTheFormat: a legal and an illegal configuration, before and after every input bit is driven. -/
theorem witness_format_check_selects :
    (3 < 4 ∧ 15 < 2 ^ State.reset.params.ebw ∧ 31 < 2 ^ State.reset.params.mbw ∧ HostWaits State.reset) ∧
    State.reset.block.floating.pat ≠ 0 ∧ (bench one 1 1).block.floating.pat = 0 ∧
    ¬ (3 = 1 ∧ 1 ≤ 15 ∧ 15 ≤ State.reset.params.expWMax ∧ 31 ≤ State.reset.params.manWMax) ∧
    (1 < 4 ∧ 8 < 2 ^ (bench one 1 1).params.ebw ∧ 23 < 2 ^ (bench one 1 1).params.mbw ∧ HostWaits (bench one 1 1)) ∧
    (1 = 1 ∧ 1 ≤ 8 ∧ 8 ≤ (bench one 1 1).params.expWMax ∧ 23 ≤ (bench one 1 1).params.manWMax) ∧
    State.reset.block.everDriven = false ∧ (bench one 1 1).block.everDriven = true ∧ HostWaits halfDriven := by
  unfold HostWaits; decide

/-- The class rows' statements, at the widest and the narrowest format and the ends of each field. -/
theorem witness_class_rows :
    (1 ≤ 1 ∧ 1 ≤ State.reset.params.expWMax ∧ 0 ≤ State.reset.params.manWMax ∧ HostWaits State.reset) ∧
    (1 ≤ 8 ∧ 8 ≤ State.reset.params.expWMax ∧ 23 ≤ State.reset.params.manWMax ∧ 2 ^ 23 - 1 ≠ 0 ∧ 2 ^ 23 - 1 < 2 ^ 23) ∧
    (1 ≤ 1 ∧ 1 < 2 ^ 2 - 1 ∧ 1 ≤ 254 ∧ 254 < 2 ^ 8 - 1) := by
  unfold HostWaits; decide

theorem witness_invalid_format_row : 0 < 4 ∧ 0 < 2 ^ State.reset.params.ebw ∧ 0 < 2 ^ State.reset.params.mbw ∧
    2 ^ 32 - 1 < 2 ^ State.reset.params.w ∧
    ¬ (0 = 1 ∧ 1 ≤ 0 ∧ 0 ≤ State.reset.params.expWMax ∧ 0 ≤ State.reset.params.manWMax) ∧ HostWaits State.reset := by
  unfold HostWaits; decide

theorem witness_invalid_pattern_row : 1 ≤ 8 ∧ 8 ≤ State.reset.params.expWMax ∧ 22 ≤ State.reset.params.manWMax ∧
    2 ^ (1 + 8 + 22) ≤ 2 ^ 31 ∧ 2 ^ 31 < 2 ^ State.reset.params.w ∧ HostWaits State.reset := by
  unfold HostWaits; decide

/-- DecodeShowsEveryCase: a pattern of E4M3 for each clause. -/
theorem witness_decode_cases :
    (3 < 4 ∧ 15 < 2 ^ State.reset.params.ebw ∧ 31 < 2 ^ State.reset.params.mbw ∧ 0x100 < 2 ^ State.reset.params.w ∧
      HostWaits State.reset) ∧ 2 ^ (1 + 4 + 3) ≤ 0x100 ∧
    ([0x00, 0x80, 0x01, 0x87, 0x08, 0xF7, 0x78, 0xF8, 0x79, 0xFF] : List Nat).map (fun p => (p / 2 ^ 3 % 2 ^ 4, p % 2 ^ 3)) =
      [(0, 0), (0, 0), (0, 1), (0, 7), (1, 0), (14, 7), (15, 0), (15, 0), (15, 1), (15, 7)] := by
  unfold HostWaits; decide

theorem witness_named_formats :
    ([(8, 23), (8, 7), (5, 10), (4, 3), (5, 2), (2, 1)] : List (Nat × Nat)).all
      (fun f => f.1 < 2 ^ State.reset.params.ebw ∧ f.2 < 2 ^ State.reset.params.mbw) = true ∧
    2 ^ 32 - 1 < 2 ^ State.reset.params.w ∧ HostWaits State.reset := by
  unfold HostWaits; decide

/-- EveryClassHasItsValueAndPorts: S, E and F of the patterns of E4M3 above, read from the ports. -/
theorem witness_decoded_value :
    1 ≤ 4 ∧ 4 ≤ Params.reference.expWMax ∧ 3 ≤ Params.reference.manWMax ∧ 15 < 2 ^ 4 ∧ 7 < 2 ^ 3 ∧
    ([(false, 0, 0), (true, 0, 7), (false, 1, 0), (true, 14, 7), (true, 15, 0), (false, 15, 1)] : List (Bool × Nat × Nat)).all
      (fun f => readInputs (levels Params.reference ⟨true, 1, 4, 3, f.1.toNat * 2 ^ (4 + 3) + f.2.1 * 2 ^ 3 + f.2.2⟩) =
        ⟨true, 1, 4, 3, f.1.toNat * 2 ^ (4 + 3) + f.2.1 * 2 ^ 3 + f.2.2⟩) = true := by decide

/-- SigAndExpMakeTheValue, SignMeansNegative: a positive and a negative finite value. -/
theorem witness_non_zero_values :
    decodeValue (levels Params.reference one) = .ok (.finite 1) ∧ (1 : Rat) ≠ 0 ∧
    decodeValue (levels Params.reference ⟨false, 1, 4, 3, 0xB8⟩) = .ok (.finite (-1)) ∧ (-1 : Rat) ≠ 0 := by decide

/-- The statements over the ports: an input set of every outcome, with its `err` and class flags. -/
theorem witness_outcomes :
    ([(4, 3, 0x80), (4, 3, 0x07), (4, 3, 0x08), (4, 3, 0x78), (4, 3, 0xFF), (0, 3, 0), (4, 3, 0x100)] :
      List (Nat × Nat × Nat)).map (fun x => rowOf (fpUnpack Params.reference (levels _ ⟨false, 1, x.1, x.2.1, x.2.2⟩))) =
    [zeroRow true, subRow false 7 (-7) 7, normRow false 8 (-6) 1 0, infRow false 15, nanRow true 15 7, errRow 1, errRow 2] := by
  decide

/-- ClassesAreContiguousRanges: both ends of the pattern range, with either sign. -/
theorem witness_contiguous_ranges : 1 ≤ 4 ∧ 4 ≤ Params.reference.expWMax ∧ 3 ≤ Params.reference.manWMax ∧ 127 < 2 ^ (4 + 3) ∧
    readInputs (levels Params.reference ⟨false, 1, 4, 3, true.toNat * 2 ^ (4 + 3) + 127⟩) =
      ⟨false, 1, 4, 3, true.toNat * 2 ^ (4 + 3) + 127⟩ ∧
    readInputs (levels Params.reference ⟨false, 1, 4, 3, false.toNat * 2 ^ (4 + 3) + 0⟩) =
      ⟨false, 1, 4, 3, false.toNat * 2 ^ (4 + 3) + 0⟩ := by decide

/-- ClassSizes, MagnitudeBounds: formats for each of their clauses. -/
theorem witness_formats : ([(2, 0), (8, 23), (1, 1), (1, 0), (3, 0)] : List (Nat × Nat)).all
    (fun f => 1 ≤ f.1 ∧ f.1 ≤ Params.reference.expWMax ∧ f.2 ≤ Params.reference.manWMax) = true := by decide

/-- NarrowFormatsLoseClasses: an infinity and a normalized result with m = 0, and an input set with e = 1. -/
theorem witness_narrow_formats :
    rowOf (fpUnpack Params.reference (levels _ ⟨false, 1, 3, 0, 7⟩)) = infRow false 7 ∧
    rowOf (fpUnpack Params.reference (levels _ ⟨false, 1, 3, 0, 1⟩)) = normRow false 1 (-2) 1 0 ∧
    (readInputs (levels Params.reference ⟨false, 1, 1, 2, 3⟩)).e = 1 := by decide

/-- ModeChangesOnlySubnormals: an input set for each clause. -/
theorem witness_mode :
    (fpUnpack Params.reference { levels Params.reference one with denormIeee := false }).isSubnormal = false ∧
    (fpUnpack Params.reference { levels Params.reference ⟨true, 1, 4, 3, 7⟩ with denormIeee := false }).isSubnormal = true := by
  decide

/-- FiniteResultsIncreaseAndNegate: the step from the denormalized to the normalized patterns, and the largest one. -/
theorem witness_increasing : 1 ≤ 4 ∧ 4 ≤ Params.reference.expWMax ∧ 3 ≤ Params.reference.manWMax ∧ 7 < 8 ∧ 8 < 119 ∧
    119 < (2 ^ 4 - 1) * 2 ^ 3 ∧ ([7, 8, 119, 2 ^ (4 + 3) + 119] : List Nat).all
      (fun p => readInputs (levels Params.reference ⟨false, 1, 4, 3, p⟩) = ⟨false, 1, 4, 3, p⟩) = true := by decide

/-- StepKeepsTheInvariant: a settled state with a transaction to do meets the invariant and steps on. -/
theorem witness_invariant : (withPending (bench one 1 1) [⟨0x28300000080, 1⟩]).Inv ∧
    ∃ t, step (withPending (bench one 1 1) [⟨0x28300000080, 1⟩]) = .next t :=
  ⟨⟨fun _ => rfl, fun _ h => (List.not_mem_nil h).elim, fun _ h => (List.not_mem_nil h).elim⟩, _, rfl⟩

/-- TransactionsLeaveTheRest, EndStateGainsOnlySettledSamples: a decode and a format selection that answer a next state. That an early decode
answers one rests with the free draw. -/
theorem witness_next_states : (∃ t, exec (.zero 4 3 false true) (bench one 1 1) = .next t) ∧
    (∃ t, exec (.formatCheck 1 0 3 false) State.reset = .next t) := ⟨⟨_, rfl⟩, ⟨_, rfl⟩⟩

/-- RowsStopOnlyForEarlySamplesAndIllFormedRows: an ill-formed row, which the model refuses. No state can be shown to fault,
because the value drawn is free. -/
theorem witness_ill_formed_row : (Instr.zero 0 3 false false).wf (bench one 1 1).params = false ∧
    exec (.zero 0 3 false false) (bench one 1 1) = .refused .illFormed := ⟨by decide, rfl⟩

/-- EarlySampleIsAFreeDraw: a sample taken at once, from power-up and after the inputs have changed. Which clause applies
rests with the free draw. -/
theorem witness_early_sample :
    ((Instr.e4m3 false 0x38).wf early.params = true ∧ (Instr.e4m3 false 0x38).tag ≠ 1 ∧
      readInputs (levels early.params one) = (Instr.e4m3 false 0x38).inWord ∧
      early.block.stableAfter (levels early.params one) < early.block.tPd) ∧
    ((bench one 7 0).block.stableAfter (levels _ ⟨false, 1, 4, 3, 0x39⟩) < (bench one 7 0).block.tPd) := by decide

/-- SameInputsNeedNoFurtherWait: the inputs stand settled already, and the host samples at once. -/
theorem witness_same_inputs : (Instr.e4m3 false 0x38).wf (bench one 1 0).params = true ∧ (Instr.e4m3 false 0x38).tag ≠ 1 ∧
    (bench one 1 0).block.floating = allDriven (bench one 1 0).params ∧
    readInputs (bench one 1 0).block.inputs = (Instr.e4m3 false 0x38).inWord ∧ (bench one 1 0).block.settled = true := by
  decide

/-- SettledSamplesDependOnInputsAlone: power-up against a part long in use, with other values of `T_PD` and of the wait. -/
theorem witness_settled_samples : (Instr.normal 4 3 false true 7 1).wf Params.reference = true ∧
    (Instr.normal 4 3 false true 7 1).tag ≠ 1 ∧ (Block.powerUp Params.reference 9).tPd ≤ (Block.powerUp Params.reference 9).hold ∧
    (bench one 5 3).block.tPd ≤ (bench one 5 3).block.hold := by decide

/-- EarlierErrorLeavesNoTrace: InvalidFormat, then a pattern that decodes. -/
theorem witness_earlier_error : (Instr.e4m3 false 0x38).wf State.reset.params = true ∧ HostWaits State.reset ∧
    (Instr.invalidFormat 1 0 3 false 0).wf State.reset.params = true ∧
    ∃ b, exec (.invalidFormat 1 0 3 false 0) State.reset = .next (State.reset.withBlock b) ∧ b.outputs.err ≠ 0b00#2 :=
  ⟨by decide, by unfold HostWaits; decide, by decide, _, rfl, by decide⟩

/-- RunEndsInTheListOfSamples: a decode that answers a value and one that answers an error, held for `T_PD` and longer. -/
theorem witness_run :
    let s := withPending State.reset [⟨0x6_28300000038, 1⟩, ⟨0x20300000000, 4⟩]
    s.block.pending = List.zipWith (fun i h => { word := encode s.params i, hold := h })
      [.e4m3 false 0x38, .invalidFormat 1 0 3 false 0] [1, 4] ∧
    (∀ i ∈ ([.e4m3 false 0x38, .invalidFormat 1 0 3 false 0] : List Instr), i.wf s.params = true ∧ i.tag ≠ 1) ∧
    (∀ h ∈ [1, 4], s.block.tPd ≤ h) := by decide

end Sys2Proof.Tests.Slice0
end

section
/-! The scope family (00_scope.md): the ceiling logarithm is the least exponent that suffices, so the configuration ports
are exactly as wide as the legal widths need; and the state at power-up. -/

namespace Sys2Proof

/-- R7: `clog2 n` is the least `k` with `n ≤ 2 ^ k`, as an equivalence. -/
theorem clog2_le_iff {n k : Nat} : clog2 n ≤ k ↔ n ≤ 2 ^ k := by
  constructor
  · intro h
    exact (le_two_pow_clog2 n).trans (Nat.pow_le_pow_right (by decide) h)
  · intro h
    by_contra hk
    exact (two_pow_lt_of_lt_clog2 (Nat.lt_of_not_le hk)).not_ge h

theorem Params.ebw_le_iff {P : Params} {k : Nat} : P.ebw ≤ k ↔ P.expWMax < 2 ^ k :=
  clog2_le_iff

theorem Params.mbw_le_iff {P : Params} {k : Nat} : P.mbw ≤ k ↔ 1 ≤ k ∧ P.manWMax < 2 ^ k :=
  max_le_iff.trans (and_congr_right' clog2_le_iff)

/-- Settles O12: each port holds its largest legal width, and `clog2` is the least exponent that does. -/
theorem configurationPortsHoldEveryLegalWidth : Obligations.ConfigurationPortsHoldEveryLegalWidth := by
  intro P
  exact ⟨Params.expWidth_fits le_rfl, Params.manWidth_fits le_rfl,
    fun _ hk => Params.ebw_le_iff.2 hk, fun _ h1 hk => Params.mbw_le_iff.2 ⟨h1, hk⟩⟩

/-- Settles O42: `State.reset` is `Block.powerUp` of the reference part, and power-up sets each field as stated. -/
theorem resetIsPowerUpOfTheReferencePart : Obligations.ResetIsPowerUpOfTheReferencePart :=
  ⟨rfl, rfl, rfl, rfl, rfl, rfl, rfl, rfl⟩

end Sys2Proof
end

section
/-! The state family (10_state.md), I: one equation for the transactions. A decode row, however it is written, drives its
input set, waits and samples the function of that input set (R74, R95, R99). -/

namespace Sys2Proof.Machine

/-! ### The ports that a row drives -/

/-- R12, R40: the input set of a well-formed transaction fits the ports. -/
theorem inWord_fits {P : Params} : ∀ {i : Instr}, i.wf P = true → i.inWord.fits P
  | .formatCheck .., h => Laws.FitsPorts.formatCheck _ _ _ _ P h
  | .decode .., h => Laws.FitsPorts.decode _ _ _ _ _ P h
  | .zero .., h => Laws.FitsPorts.zero _ _ _ _ P h
  | .subnormalRef .., h => Laws.FitsPorts.subnormalRef _ _ _ _ P h
  | .subnormalIeee .., h => Laws.FitsPorts.subnormalIeee _ _ _ _ P h
  | .normal .., h => Laws.FitsPorts.normal _ _ _ _ _ _ P h
  | .infPos .., h => Laws.FitsPorts.infPos _ _ _ P h
  | .infNeg .., h => Laws.FitsPorts.infNeg _ _ _ P h
  | .nan .., h => Laws.FitsPorts.nan _ _ _ _ _ P h
  | .invalidFormat .., h => Laws.FitsPorts.invalidFormat _ _ _ _ _ P h
  | .invalidPattern .., h => Laws.FitsPorts.invalidPattern _ _ _ _ P h
  | .e8m23 .., h => Laws.FitsPorts.e8m23 _ _ P h
  | .e8m7 .., h => Laws.FitsPorts.e8m7 _ _ P h
  | .e5m10 .., h => Laws.FitsPorts.e5m10 _ _ P h
  | .e4m3 .., h => Laws.FitsPorts.e4m3 _ _ P h
  | .e5m2 .., h => Laws.FitsPorts.e5m2 _ _ P h
  | .e2m1 .., h => Laws.FitsPorts.e2m1 _ _ P h

theorem readInputs_inputsOf {P : Params} {i : Instr} (h : i.wf P = true) : readInputs (inputsOf P i) = i.inWord :=
  readInputs_levels (inWord_fits h)

/-! ### The case rules agree with the block's function -/

/-- R35, R74: what the block shows on the pattern of three fields. -/
theorem fpUnpack_patOf {P : Params} {e m E F : Nat} (ieee S : Bool) (hl : P.legal e m = true) (hE : E < 2 ^ e)
    (hF : F < 2 ^ m) :
    fpUnpack P (levels P ⟨ieee, 1, e, m, patOf e m S E F⟩) = classOutputs P e m ieee ⟨S, E, F⟩ := by
  have hp := patOf_lt (S := S) hE hF
  have hr := readInputs_levels (Laws.FitsPorts.fits_of_legal (ieee := ieee) hl hp)
  have h := fpUnpack_wellFormed (i := levels P ⟨ieee, 1, e, m, patOf e m S E F⟩)
  rw [hr] at h
  rw [h rfl hl hp, patFields_patOf hE hF]

section
variable {P : Params} {s e m E F pat : Nat} {ieee S : Bool}

theorem fpUnpack_zero (h : (Instr.zero e m ieee S).wf P = true) :
    fpUnpack P (inputsOf P (.zero e m ieee S)) = zeroOutputs P S 0 0 := by
  have hl : P.legal e m = true := h
  have he := allOnesExp_pos (Params.legal_iff.1 hl).1
  exact (fpUnpack_patOf ieee S hl (Nat.two_pow_pos e) (Nat.two_pow_pos m)).trans (by simp [classOutputs, he.ne])

/-- R67, R68: a denormalized pattern, in either mode. -/
theorem fpUnpack_subnormal (hl : P.legal e m = true) (h0 : F ≠ 0) (hF : F < 2 ^ m) :
    fpUnpack P (levels P ⟨ieee, 1, e, m, patOf e m S 0 F⟩) =
      subnormalOutputs P S 0 F F (exponentOf e ieee 0) := by
  have he := allOnesExp_pos (Params.legal_iff.1 hl).1
  exact (fpUnpack_patOf ieee S hl (Nat.two_pow_pos e) hF).trans (by simp [classOutputs, he.ne, h0])

theorem fpUnpack_subnormalRef (h : (Instr.subnormalRef e m S F).wf P = true) :
    fpUnpack P (inputsOf P (.subnormalRef e m S F)) = subnormalOutputs P S 0 F F (-bias e) := by
  simp only [Instr.wf, Bool.and_eq_true, decide_eq_true_eq] at h
  obtain ⟨⟨hl, h0⟩, hF⟩ := h
  exact (fpUnpack_subnormal hl h0 hF).trans (by simp [exponentOf])

theorem fpUnpack_subnormalIeee (h : (Instr.subnormalIeee e m S F).wf P = true) :
    fpUnpack P (inputsOf P (.subnormalIeee e m S F)) = subnormalOutputs P S 0 F F (1 - bias e) := by
  simp only [Instr.wf, Bool.and_eq_true, decide_eq_true_eq] at h
  obtain ⟨⟨hl, h0⟩, hF⟩ := h
  exact (fpUnpack_subnormal hl h0 hF).trans (by simp [exponentOf])

theorem fpUnpack_normal (h : (Instr.normal e m ieee S E F).wf P = true) :
    fpUnpack P (inputsOf P (.normal e m ieee S E F)) = normalOutputs P S E F (2 ^ m + F) (E - bias e) := by
  simp only [Instr.wf, Bool.and_eq_true, decide_eq_true_eq] at h
  obtain ⟨⟨⟨hl, h1⟩, hE⟩, hF⟩ := h
  have h0 : E ≠ 0 := by omega
  have hne : E ≠ allOnesExp e := by rw [allOnesExp]; omega
  exact (fpUnpack_patOf ieee S hl (by omega) hF).trans (by simp [classOutputs, exponentOf, h0, hne])

/-- R64: the pattern of an infinity, of either sign. -/
theorem fpUnpack_inf (hl : P.legal e m = true) :
    fpUnpack P (levels P ⟨ieee, 1, e, m, patOf e m S (allOnesExp e) 0⟩) = infOutputs P S S (allOnesExp e) 0 :=
  (fpUnpack_patOf ieee S hl (Laws.FitsPorts.allOnesExp_lt e) (Nat.two_pow_pos m)).trans (by simp [classOutputs])

theorem fpUnpack_nan (h : (Instr.nan e m ieee S F).wf P = true) :
    fpUnpack P (inputsOf P (.nan e m ieee S F)) = nanOutputs P S (allOnesExp e) F := by
  simp only [Instr.wf, Bool.and_eq_true, decide_eq_true_eq] at h
  obtain ⟨⟨hl, h0⟩, hF⟩ := h
  exact (fpUnpack_patOf ieee S hl (Laws.FitsPorts.allOnesExp_lt e) hF).trans (by simp [classOutputs, h0])

theorem fpUnpack_invalidFormatRow (h : (Instr.invalidFormat s e m ieee pat).wf P = true) :
    fpUnpack P (inputsOf P (.invalidFormat s e m ieee pat)) = errorOutputs P .invalidFormat := by
  apply fpUnpack_invalidFormat
  rw [readInputs_inputsOf h]
  exact illegal_iff_not_formatValid.1 (Bool.and_eq_true_iff.1 h).2

theorem fpUnpack_invalidPatternRow (h : (Instr.invalidPattern e m ieee pat).wf P = true) :
    fpUnpack P (inputsOf P (.invalidPattern e m ieee pat)) = errorOutputs P .invalidPattern := by
  have hw := h
  simp only [Instr.wf, Bool.and_eq_true, decide_eq_true_eq] at hw
  obtain ⟨⟨hl, -⟩, hp⟩ := hw
  apply fpUnpack_invalidPattern <;> rw [readInputs_inputsOf h]
  exacts [rfl, hl, hp]

end

/-! ### The two kinds of transaction -/

/-- An ill-formed row is refused whatever its outputs would be. -/
theorem transact_congr {s : State} {i : Instr} {o o' : Outputs s.params} (h : i.wf s.params = true → o' = o) :
    s.transact i o = s.transact i o' := by
  cases hw : i.wf s.params
  · simp [State.transact, hw]
  · rw [h hw]

/-- R74: every decode row is the decode transaction of its input set, with the outputs of the block's function. -/
theorem exec_eq_transact (s : State) : ∀ {i : Instr}, i.tag ≠ 1 →
    exec i s = s.transact i (fpUnpack s.params (inputsOf s.params i))
  | .formatCheck .., h => absurd rfl h
  | .zero .., _ => transact_congr fpUnpack_zero
  | .subnormalRef .., _ => transact_congr fpUnpack_subnormalRef
  | .subnormalIeee .., _ => transact_congr fpUnpack_subnormalIeee
  | .normal .., _ => transact_congr fpUnpack_normal
  | .infPos .., _ => transact_congr fpUnpack_inf
  | .infNeg .., _ => transact_congr fpUnpack_inf
  | .nan .., _ => transact_congr fpUnpack_nan
  | .invalidFormat .., _ => transact_congr fpUnpack_invalidFormatRow
  | .invalidPattern .., _ => transact_congr fpUnpack_invalidPatternRow
  | .decode .., _ | .e8m23 .., _ | .e8m7 .., _ | .e5m10 .., _ | .e4m3 .., _ | .e5m2 .., _ | .e2m1 .., _ => rfl

theorem exec_eq_select (s : State) {i : Instr} (h : i.tag = 1) : exec i s = s.select i := by
  cases i with
  | formatCheck => rfl
  | _ => simp [Instr.tag] at h

/-! ### The block after a transaction -/

namespace Block

variable {P : Params} (b : Block P) (i : Inputs P)

/-- R95, R99: the block after a decode transaction that drives `i` and does not stop. -/
def afterDecode : Block P :=
  let c := (b.drive i).settleFor b.hold (fpUnpack P i)
  { c with samples := c.samples ++ [{ inputs := c.inputs, outputs := c.outputs, settled := c.settled }] }

@[simp] theorem afterDecode_tPd : (b.afterDecode i).tPd = b.tPd := by simp [afterDecode]
@[simp] theorem afterDecode_inputs : (b.afterDecode i).inputs = i := by simp [afterDecode]
@[simp] theorem afterDecode_floating : (b.afterDecode i).floating = allDriven P := by simp [afterDecode]
@[simp] theorem afterDecode_everDriven : (b.afterDecode i).everDriven = true := by simp [afterDecode]
@[simp] theorem afterDecode_stable : (b.afterDecode i).stable = b.stableAfter i := by
  simp [afterDecode, stableAfter, drive]
@[simp] theorem afterDecode_pending : (b.afterDecode i).pending = b.pending := by simp [afterDecode]
@[simp] theorem afterDecode_hold : (b.afterDecode i).hold = b.hold := by simp [afterDecode]
@[simp] theorem afterDecode_samples : (b.afterDecode i).samples =
    b.samples ++ [⟨i, (b.afterDecode i).outputs, (b.afterDecode i).settled⟩] := by
  simp [afterDecode, settled]

theorem le_settleFor_draws (t : Nat) (o : Outputs P) : b.draws ≤ (b.settleFor t o).draws := by
  rw [settleFor_draws]
  split <;> omega

theorem le_afterDecode_draws : b.draws ≤ (b.afterDecode i).draws :=
  (b.drive i).le_settleFor_draws b.hold (fpUnpack P i)

theorem le_redraw_draws : b.draws ≤ b.redraw.draws := by
  unfold redraw
  split
  · exact Nat.le_refl _
  · exact Nat.le_succ _

theorem le_formatTransaction_draws : b.draws ≤ (b.formatTransaction i).draws :=
  b.le_redraw_draws.trans ((b.driveFormat i).le_settleFor_draws _ _)

theorem afterDecode_outputs_of_settled (h : (b.afterDecode i).settled = true) :
    (b.afterDecode i).outputs = fpUnpack P i :=
  (b.drive i).settleFor_outputs_of_settled _ _ h

/-- R95: when the host waits, its sample is settled. -/
theorem afterDecode_settled_of_waits (h : b.tPd ≤ b.hold) : (b.afterDecode i).settled = true := by
  simp only [settled, afterDecode_everDriven, afterDecode_tPd, afterDecode_stable, stableAfter, Bool.true_and,
    decide_eq_true_eq]
  omega

end Block

/-- Everything a decode row can answer. -/
theorem exec_decodeRow (s : State) {i : Instr} (ht : i.tag ≠ 1) :
    exec i s =
      if i.wf s.params then
        if (s.block.afterDecode (inputsOf s.params i)).outputs.err = 0b11#2 then .fault .reservedErr
        else .next (s.withBlock (s.block.afterDecode (inputsOf s.params i)))
      else .refused .illFormed := by
  rw [exec_eq_transact s ht]
  rcases s.transact_cases i (fpUnpack s.params (inputsOf s.params i)) with ⟨hw, h⟩ | ⟨hw, ⟨he, h⟩ | ⟨he, h⟩⟩
  · rw [h, hw]
    rfl
  · rw [h, if_pos hw]
    exact (if_pos he).symm
  · rw [h, if_pos hw]
    exact (if_neg he).symm

/-- Every way in which a transaction answers a next state. -/
theorem exec_next_cases {s t : State} {i : Instr} (h : exec i s = .next t) :
    i.wf s.params = true ∧
      ((i.tag = 1 ∧ t = s.withBlock (s.block.formatTransaction (inputsOf s.params i))) ∨
       (i.tag ≠ 1 ∧ (s.block.afterDecode (inputsOf s.params i)).outputs.err ≠ 0b11#2 ∧
         t = s.withBlock (s.block.afterDecode (inputsOf s.params i)))) := by
  by_cases ht : i.tag = 1
  · rw [exec_eq_select s ht] at h
    rcases s.select_cases i with ⟨hw, hs⟩ | ⟨-, hs⟩ <;> rw [hs] at h
    · exact ⟨hw, .inl ⟨ht, (Host.Outcome.next.inj h).symm⟩⟩
    · cases h
  · rw [exec_decodeRow s ht] at h
    split at h
    · next hw =>
      split at h
      · cases h
      · next he => exact ⟨hw, .inr ⟨ht, he, (Host.Outcome.next.inj h).symm⟩⟩
    · cases h

/-! ### The invariant -/

/-- R94: whatever was driven before it, a wait that ends in the block's function meets the invariant. -/
theorem Block.Inv.settleFor {P : Params} {b c : Block P} (h : b.Inv) (hs : c.samples = b.samples) (t : Nat) :
    (c.settleFor t (fpUnpack P c.inputs)).Inv where
  outputs_settled hset := by rw [settleFor_outputs_of_settled _ _ _ hset, settleFor_inputs]
  samples_settled := by simpa [hs] using h.samples_settled
  samples_err := by simpa [hs] using h.samples_err

theorem Block.Inv.idle {P : Params} {b : Block P} (h : b.Inv) : b.idle.Inv :=
  h.settleFor (redraw_samples b) 1

theorem Block.Inv.formatTransaction {P : Params} {b : Block P} (h : b.Inv) (i : Inputs P) :
    (b.formatTransaction i).Inv :=
  h.settleFor (driveFormat_samples b i) b.hold

/-- The new sample shows the ports, so what holds of the ports holds of it. -/
theorem Block.Inv.afterDecode {P : Params} {b : Block P} (h : b.Inv) (i : Inputs P)
    (he : (b.afterDecode i).outputs.err ≠ 0b11#2) : (b.afterDecode i).Inv where
  outputs_settled hset := by rw [b.afterDecode_outputs_of_settled i hset, afterDecode_inputs]
  samples_settled x hx hset := by
    rw [afterDecode_samples, List.mem_append, List.mem_singleton] at hx
    rcases hx with hx | rfl
    · exact h.samples_settled x hx hset
    · exact b.afterDecode_outputs_of_settled i hset
  samples_err x hx := by
    rw [afterDecode_samples, List.mem_append, List.mem_singleton] at hx
    rcases hx with hx | rfl
    · exact h.samples_err x hx
    · exact he

theorem exec_keeps_inv {s t : State} {i : Instr} (hs : s.Inv) (h : exec i s = .next t) : t.Inv := by
  obtain ⟨-, ⟨-, rfl⟩ | ⟨-, he, rfl⟩⟩ := exec_next_cases h
  · exact Block.Inv.formatTransaction hs _
  · exact Block.Inv.afterDecode hs _ he

/-- Settles O44: an idle step and both kinds of transaction keep the invariant, and beginning a transaction touches no
field that the invariant reads. -/
theorem stepKeepsTheInvariant : Obligations.StepKeepsTheInvariant := by
  intro s t hs hstep
  rcases step_cases s with ⟨-, h⟩ | ⟨tr, rest, -, ⟨i, -, h⟩ | ⟨why, -, h⟩⟩ <;> rw [h] at hstep
  · cases hstep
    exact Block.Inv.idle hs
  · have hbegun : (s.withBlock { s.block with pending := rest, hold := tr.hold }).Inv :=
      ⟨hs.outputs_settled, hs.samples_settled, hs.samples_err⟩
    exact exec_keeps_inv hbegun hstep
  · cases hstep

/-- Settles O46: read off the block after each kind of transaction. -/
theorem transactionsLeaveTheRest : Obligations.TransactionsLeaveTheRest := by
  intro s t i h
  obtain ⟨hw, ⟨ht, rfl⟩ | ⟨ht, -, rfl⟩⟩ := exec_next_cases h
  · exact ⟨_, rfl, by simp [Block.formatTransaction], by simp [Block.formatTransaction],
      by simp [Block.formatTransaction], s.block.le_formatTransaction_draws _,
      fun _ => by simp [Block.formatTransaction], fun h1 => absurd ht h1⟩
  · refine ⟨_, rfl, by simp, by simp, by simp, s.block.le_afterDecode_draws _, fun h1 => absurd h1 ht,
      fun _ => ⟨by simp, by simp, ?_, ?_⟩⟩
    · rw [Block.afterDecode_inputs, readInputs_inputsOf hw]
    · rw [Block.afterDecode_samples, Block.afterDecode_inputs]

end Sys2Proof.Machine
end

section
/-! The state family (10_state.md), II: what the output ports show for every input set, case by case (R16 to R22), and
what follows for settled samples. -/

namespace Sys2Proof.Machine

/-! ### The outputs of each class fit their ports -/

/-- R20: `exp` is wide enough for the exponent of every finite pattern of every legal format. -/
theorem exponentOf_bounds {e E : Nat} (ieee : Bool) (he : 1 ≤ e) (hE : E < 2 ^ e) (hne : E ≠ allOnesExp e) :
    -2 ^ e ≤ exponentOf e ieee E ∧ exponentOf e ieee E < 2 ^ e := by
  obtain ⟨k, rfl⟩ := Nat.exists_eq_add_of_le' he
  have hk : (1 : Int) ≤ 2 ^ k := by exact_mod_cast Nat.one_le_two_pow
  have hE' : (E : Int) < 2 ^ k * 2 := by exact_mod_cast (Nat.pow_succ .. ▸ hE : E < 2 ^ k * 2)
  simp only [exponentOf, bias, Nat.add_sub_cancel, pow_succ]
  split <;> omega

section
variable {P : Params} {e m : Nat}

theorem expPort_toInt {E : Nat} (ieee : Bool) (hl : P.legal e m = true) (hE : E < 2 ^ e) (hne : E ≠ allOnesExp e) :
    (BitVec.ofInt P.expw (exponentOf e ieee E)).toInt = exponentOf e ieee E := by
  obtain ⟨he, heP, -⟩ := Params.legal_iff.1 hl
  obtain ⟨hlo, hhi⟩ := exponentOf_bounds ieee he hE hne
  have hpow : (2 : Int) ^ e ≤ 2 ^ P.expWMax := pow_le_pow_right₀ (by decide) heP
  exact BitVec.toInt_ofInt_eq_self (Nat.succ_pos _) ((neg_le_neg hpow).trans hlo) (hhi.trans_le hpow)

theorem sigPort_toNat {k : Nat} (hl : P.legal e m = true) (hk : k < 2 ^ (m + 1)) :
    (BitVec.ofNat P.sigw k).toNat = k := by
  rw [BitVec.toNat_ofNat]
  obtain ⟨-, -, hm⟩ := Params.legal_iff.1 hl
  exact Nat.mod_eq_of_lt (hk.trans_le (Nat.pow_le_pow_right (by decide) (Nat.succ_le_succ hm)))

theorem fExpPort_toNat {E : Nat} (hl : P.legal e m = true) (hE : E < 2 ^ e) :
    (BitVec.ofNat P.expWMax E).toNat = E := by
  rw [BitVec.toNat_ofNat]
  obtain ⟨-, he, -⟩ := Params.legal_iff.1 hl
  exact Nat.mod_eq_of_lt (hE.trans_le (Nat.pow_le_pow_right (by decide) he))

theorem fManPort_toNat {F : Nat} (hl : P.legal e m = true) (hF : F < 2 ^ m) :
    (BitVec.ofNat P.manWMax F).toNat = F := by
  rw [BitVec.toNat_ofNat]
  obtain ⟨-, -, hm⟩ := Params.legal_iff.1 hl
  exact Nat.mod_eq_of_lt (hF.trans_le (Nat.pow_le_pow_right (by decide) hm))

/-! ### What each output map shows (R70 to R73, R80) -/

theorem errorOutputs_shows (P : Params) (x : DecodeError) : ShowsError (errorOutputs P x) (errCode x) := by
  constructor <;> simp [errorOutputs, zeros]

variable {f : Fields} (hl : P.legal e m = true) (hE : f.E < 2 ^ e) (hF : f.F < 2 ^ m)
include hl hE hF

theorem zeroOutputs_shows : Shows (zeroOutputs P f.S f.E f.F) .zero f false 0 0 := by
  constructor <;> simp [zeroOutputs, rawOutputs, zeros, fExpPort_toNat hl hE, fManPort_toNat hl hF]

theorem infOutputs_shows : Shows (infOutputs P f.S f.S f.E f.F) .inf f f.S 0 0 := by
  constructor <;> simp [infOutputs, rawOutputs, zeros, fExpPort_toNat hl hE, fManPort_toNat hl hF]

theorem nanOutputs_shows : Shows (nanOutputs P f.S f.E f.F) .nan f false 0 0 := by
  constructor <;> simp [nanOutputs, rawOutputs, zeros, fExpPort_toNat hl hE, fManPort_toNat hl hF]

theorem subnormalOutputs_shows (ieee : Bool) (hne : f.E ≠ allOnesExp e) :
    Shows (subnormalOutputs P f.S f.E f.F f.F (exponentOf e ieee f.E)) .subnormal f f.S f.F (exponentOf e ieee f.E) := by
  have hsig : f.F < 2 ^ (m + 1) := hF.trans (Nat.pow_lt_pow_succ (by decide))
  constructor <;> simp [subnormalOutputs, rawOutputs, zeros, fExpPort_toNat hl hE, fManPort_toNat hl hF,
    sigPort_toNat hl hsig, expPort_toInt ieee hl hE hne]

theorem normalOutputs_shows (ieee : Bool) (hne : f.E ≠ allOnesExp e) :
    Shows (normalOutputs P f.S f.E f.F (2 ^ m + f.F) (exponentOf e ieee f.E)) .normal f f.S (2 ^ m + f.F)
      (exponentOf e ieee f.E) := by
  have hsig : 2 ^ m + f.F < 2 ^ (m + 1) := by rw [pow_succ]; omega
  constructor <;> simp [normalOutputs, rawOutputs, zeros, fExpPort_toNat hl hE, fManPort_toNat hl hF,
    sigPort_toNat hl hsig, expPort_toInt ieee hl hE hne]

end

/-! ### The seven cases of the block's function -/

/-- R60, R74: on the input set `x` the block decodes to `v` and its output ports show `o`. One case for each error
(R81, R82) and each result class (R62 to R73). -/
inductive Answers (P : Params) (x : InWord) : Except DecodeError DecodedValue → Outputs P → Prop
  | invalidFormat {o : Outputs P} (hillegal : formatValid P x.s x.e x.m = false) (hshows : ShowsError o 0b01#2) :
      Answers P x (.error .invalidFormat) o
  | invalidPattern {o : Outputs P} (hs : x.s = 1) (hl : P.legal x.e x.m = true)
      (hp : 2 ^ (1 + x.e + x.m) ≤ x.pat) (hshows : ShowsError o 0b10#2) :
      Answers P x (.error .invalidPattern) o
  | zero {o : Outputs P} {f : Fields} (hf : f = patFields x.e x.m x.pat) (hs : x.s = 1) (hl : P.legal x.e x.m = true)
      (hp : x.pat < 2 ^ (1 + x.e + x.m)) (hE : f.E = 0) (hF : f.F = 0) (hshows : Shows o .zero f false 0 0) :
      Answers P x (.ok (.finite 0)) o
  | subnormal {o : Outputs P} {f : Fields} (hf : f = patFields x.e x.m x.pat) (hs : x.s = 1)
      (hl : P.legal x.e x.m = true) (hp : x.pat < 2 ^ (1 + x.e + x.m)) (hE : f.E = 0) (hF : f.F ≠ 0)
      (hshows : Shows o .subnormal f f.S f.F (exponentOf x.e x.ieee f.E)) :
      Answers P x (.ok (.finite (dyadic (signed f.S f.F) (exponentOf x.e x.ieee f.E - x.m)))) o
  | normal {o : Outputs P} {f : Fields} (hf : f = patFields x.e x.m x.pat) (hs : x.s = 1)
      (hl : P.legal x.e x.m = true) (hp : x.pat < 2 ^ (1 + x.e + x.m)) (hE : f.E ≠ 0) (hne : f.E ≠ allOnesExp x.e)
      (hshows : Shows o .normal f f.S (2 ^ x.m + f.F) (exponentOf x.e x.ieee f.E)) :
      Answers P x (.ok (.finite (dyadic (signed f.S (2 ^ x.m + f.F)) (exponentOf x.e x.ieee f.E - x.m)))) o
  | inf {o : Outputs P} {f : Fields} (hf : f = patFields x.e x.m x.pat) (hs : x.s = 1) (hl : P.legal x.e x.m = true)
      (hp : x.pat < 2 ^ (1 + x.e + x.m)) (hE : f.E = allOnesExp x.e) (hF : f.F = 0)
      (hshows : Shows o .inf f f.S 0 0) :
      Answers P x (.ok (if f.S then .negInf else .posInf)) o
  | nan {o : Outputs P} {f : Fields} (hf : f = patFields x.e x.m x.pat) (hs : x.s = 1) (hl : P.legal x.e x.m = true)
      (hp : x.pat < 2 ^ (1 + x.e + x.m)) (hE : f.E = allOnesExp x.e) (hF : f.F ≠ 0)
      (hshows : Shows o .nan f false 0 0) :
      Answers P x (.ok .nan) o

/-- R64 to R73: the five classes of a well-formed pattern of a legal format. -/
theorem answers_of_wellFormed {P : Params} {x : InWord} (hs : x.s = 1) (hl : P.legal x.e x.m = true)
    (hp : x.pat < 2 ^ (1 + x.e + x.m)) :
    Answers P x (.ok (decodeFields x.e x.m x.ieee (patFields x.e x.m x.pat)))
      (classOutputs P x.e x.m x.ieee (patFields x.e x.m x.pat)) := by
  obtain ⟨hElt, hFlt⟩ := patFields_lt x.e x.m x.pat
  have hones := allOnesExp_pos (Params.legal_iff.1 hl).1
  generalize hf : patFields x.e x.m x.pat = f at hElt hFlt ⊢
  unfold decodeFields classOutputs
  by_cases hE : f.E = allOnesExp x.e
  · rw [if_pos hE, if_pos hE]
    by_cases hF : f.F = 0
    · rw [if_pos hF, if_pos hF]
      exact .inf hf.symm hs hl hp hE hF (infOutputs_shows hl hElt hFlt)
    · rw [if_neg hF, if_neg hF]
      exact .nan hf.symm hs hl hp hE hF (nanOutputs_shows hl hElt hFlt)
  · rw [if_neg hE, if_neg hE]
    by_cases hE0 : f.E = 0
    · rw [if_pos hE0]
      by_cases hF : f.F = 0
      · rw [if_pos hF]
        have hv : dyadic (signed f.S (sigI x.m f.E f.F)) (exponentOf x.e x.ieee f.E - x.m) = 0 :=
          dyadic_eq_zero_iff.2 (signed_eq_zero_iff.2 (sigI_eq_zero_iff.2 ⟨hE0, hF⟩))
        rw [hv]
        exact .zero hf.symm hs hl hp hE0 hF (zeroOutputs_shows hl hElt hFlt)
      · have hsig : sigI x.m f.E f.F = f.F := by rw [hE0, sigI_zero]
        rw [if_neg hF, hsig]
        exact .subnormal hf.symm hs hl hp hE0 hF (subnormalOutputs_shows hl hElt hFlt _ hE)
    · rw [if_neg hE0, sigI_pos _ _ hE0]
      exact .normal hf.symm hs hl hp hE0 hE (normalOutputs_shows hl hElt hFlt _ hE)

/-- R60, R61, R74: every input set of every part is one of the seven cases. -/
theorem fpUnpack_answers {P : Params} (i : Inputs P) : Answers P (readInputs i) (decodeValue i) (fpUnpack P i) := by
  cases hv : formatValid P (readInputs i).s (readInputs i).e (readInputs i).m with
  | false =>
    rw [decodeValue_invalidFormat hv, fpUnpack_invalidFormat hv]
    exact .invalidFormat hv (errorOutputs_shows P .invalidFormat)
  | true =>
    obtain ⟨hs, hl⟩ := formatValid_iff_legal.1 hv
    rcases Nat.lt_or_ge (readInputs i).pat (2 ^ (1 + (readInputs i).e + (readInputs i).m)) with hp | hp
    · rw [decodeValue_wellFormed hs hl hp, fpUnpack_wellFormed hs hl hp]
      exact answers_of_wellFormed hs hl hp
    · rw [decodeValue_invalidPattern hs hl hp, fpUnpack_invalidPattern hs hl hp]
      exact .invalidPattern hs hl hp (errorOutputs_shows P .invalidPattern)

/-- R16: an input set ends in an error, which no other output shows, or in a value with its class. -/
theorem Answers.error_or_class {P : Params} {x : InWord} {v : Except DecodeError DecodedValue} {o : Outputs P}
    (h : Answers P x v o) :
    (∃ err, v = .error err ∧ ShowsError o (errCode err)) ∨
    (∃ val c sign sig exponent, v = .ok val ∧ Shows o c (patFields x.e x.m x.pat) sign sig exponent) := by
  cases h with
  | invalidFormat _ hshows => exact .inl ⟨_, rfl, hshows⟩
  | invalidPattern _ _ _ hshows => exact .inl ⟨_, rfl, hshows⟩
  | zero hf _ _ _ _ _ hshows => exact .inr ⟨_, _, _, _, _, rfl, hf ▸ hshows⟩
  | subnormal hf _ _ _ _ _ hshows => exact .inr ⟨_, _, _, _, _, rfl, hf ▸ hshows⟩
  | normal hf _ _ _ _ _ hshows => exact .inr ⟨_, _, _, _, _, rfl, hf ▸ hshows⟩
  | inf hf _ _ _ _ _ hshows => exact .inr ⟨_, _, _, _, _, rfl, hf ▸ hshows⟩
  | nan hf _ _ _ _ _ hshows => exact .inr ⟨_, _, _, _, _, rfl, hf ▸ hshows⟩

/-! ### err and the raw outputs -/

theorem errCode_ne_zero (err : DecodeError) : errCode err ≠ 0b00#2 := by
  cases err <;> decide

/-- Settles O30: the two codes are distinct and neither is 0b00 or 0b11. -/
theorem errNamesTheOutcome : Obligations.ErrNamesTheOutcome := by
  intro P i
  rcases (fpUnpack_answers i).error_or_class with ⟨err, hv, ho⟩ | ⟨val, c, sign, sig, ex, hv, ho⟩
  · simp only [hv, ho.err]
    cases err <;> simp [errCode] <;> exact ho
  · simp [hv, ho.err]

/-- R90: the block never drives the reserved code. -/
theorem fpUnpack_err_ne_reserved {P : Params} (i : Inputs P) : (fpUnpack P i).err ≠ 0b11#2 := by
  obtain ⟨-, -, -, h, -⟩ := errNamesTheOutcome P i
  exact h

/-- R35: the sign field is one bit of the pattern. -/
theorem patFields_S_eq_testBit (e m pat : Nat) : (patFields e m pat).S = pat.testBit (e + m) := by
  simp [patFields, bits, Nat.testBit_eq_decide_div_mod_eq]

/-- Settles O33: a class shows the fields of the pattern, and an error shows 0. -/
theorem rawOutputsAreTheFields : Obligations.RawOutputsAreTheFields := by
  intro P i
  rcases (fpUnpack_answers i).error_or_class with ⟨err, -, ho⟩ | ⟨val, c, sign, sig, ex, -, ho⟩
  · exact ⟨fun h0 => absurd (ho.err.symm.trans h0) (errCode_ne_zero err), fun _ => ⟨ho.fSign, ho.fExp, ho.fMan⟩⟩
  · refine ⟨fun _ => ⟨ho.fSign.trans (patFields_S_eq_testBit _ _ _), ho.fExp, ?_⟩, fun h0 => absurd ho.err h0⟩
    exact ho.fMan.trans (bits_zero_right _ _)

/-! ### The class flags -/

section
variable {P : Params} {o : Outputs P}

/-- The class flags that are 1. -/
def flagCount (o : Outputs P) : Nat :=
  o.isZero.toNat + o.isSubnormal.toNat + o.isNormal.toNat + o.isInf.toNat + o.isNan.toNat

theorem Shows.flagCount_eq_one {c : ResultClass} {f : Fields} {sign : Bool} {sig : Nat}
    {exponent : Int} (h : Shows o c f sign sig exponent) : flagCount o = 1 := by
  rw [flagCount, h.isZero, h.isSubnormal, h.isNormal, h.isInf, h.isNan]
  cases c <;> rfl

theorem ShowsError.flagCount_eq_zero {code : BitVec 2} (h : ShowsError o code) : flagCount o = 0 := by
  rw [flagCount, h.isZero, h.isSubnormal, h.isNormal, h.isInf, h.isNan]
  rfl

theorem ShowsError.not_finite {code : BitVec 2} (h : ShowsError o code) :
    (o.isZero || o.isSubnormal || o.isNormal) = false := by
  rw [h.isZero, h.isSubnormal, h.isNormal]
  rfl

/-- The finite flags are those of the finite classes. -/
theorem Shows.finite_iff {c : ResultClass} {f : Fields} {sign : Bool} {sig : Nat}
    {exponent : Int} (h : Shows o c f sign sig exponent) :
    (o.isZero || o.isSubnormal || o.isNormal) = true ↔ c = .zero ∨ c = .subnormal ∨ c = .normal := by
  simp [h.isZero, h.isSubnormal, h.isNormal, or_assoc]

/-- R17: the flags tell exactly whether the result is finite. -/
theorem Answers.finite_iff {x : InWord} {v : Except DecodeError DecodedValue} (h : Answers P x v o) :
    (∃ q, v = .ok (.finite q)) ↔ (o.isZero || o.isSubnormal || o.isNormal) = true := by
  cases h with
  | invalidFormat _ hshows | invalidPattern _ _ _ hshows => simp [hshows.not_finite]
  | zero _ _ _ _ _ _ hshows | subnormal _ _ _ _ _ _ hshows | normal _ _ _ _ _ _ hshows
  | nan _ _ _ _ _ _ hshows => simp [hshows.finite_iff]
  | @inf _ f _ _ _ _ _ _ hshows => cases f.S <;> simp [hshows.finite_iff]

end

/-- Settles O29: a shown class has one flag, a shown error none, and the finite flags are those of the finite cases. -/
theorem exactlyOneClassFlag : Obligations.ExactlyOneClassFlag := by
  intro P i
  refine ⟨?_, ?_, (fpUnpack_answers i).finite_iff⟩ <;> intro h0 <;>
    rcases (fpUnpack_answers i).error_or_class with ⟨err, -, ho⟩ | ⟨val, c, sign, sig, ex, -, ho⟩
  · exact absurd (ho.err.symm.trans h0) (errCode_ne_zero err)
  · exact ho.flagCount_eq_one
  · exact ho.flagCount_eq_zero
  · exact absurd ho.err h0

/-! ### sign, sig and exp -/

theorem dyadic_neg_iff {k j : Int} : dyadic k j < 0 ↔ k < 0 := by
  have hpos : (0 : ℚ) < 2 ^ j := zpow_pos two_pos j
  rw [dyadic_eq, mul_neg_iff]
  simp [hpos, hpos.not_gt]

theorem signed_neg_iff {S : Bool} {k : Nat} (hk : k ≠ 0) : signed S k < 0 ↔ S = true := by
  cases S <;> simp [signed, Nat.pos_of_ne_zero hk]

theorem exponentOf_zero (e : Nat) (ieee : Bool) :
    exponentOf e ieee 0 = if ieee then 1 - bias e else -bias e := by
  cases ieee <;> simp [exponentOf]

theorem exponentOf_pos {E : Nat} (e : Nat) (ieee : Bool) (hE : E ≠ 0) : exponentOf e ieee E = E - bias e := by
  simp [exponentOf, hE]

/-- R20: the value of a finite result, from what its ports show. -/
theorem Shows.value_eq {P : Params} {o : Outputs P} {c : ResultClass} {f : Fields} {sign : Bool} {sig : Nat}
    {exponent : Int} (h : Shows o c f sign sig exponent) (m : Int) :
    dyadic (signed sign sig) (exponent - m) =
      (-1) ^ o.sign.toNat * (o.sig.toNat : ℚ) * (2 : ℚ) ^ (o.exp.toInt - m) := by
  rw [dyadic_eq, signed_cast, h.sign, h.sig, h.exp]

/-- Settles O31: a non-zero finite value has the sign of its significand, and zero, NaN and the errors show sign 0. -/
theorem signMeansNegative : Obligations.SignMeansNegative := by
  intro P i
  have h := fpUnpack_answers i
  generalize decodeValue i = v, fpUnpack P i = o at h ⊢
  cases h with
  | invalidFormat _ hshows | invalidPattern _ _ _ hshows => simp [hshows.sign]
  | zero _ _ _ _ _ _ hshows | nan _ _ _ _ _ _ hshows => simp [hshows.sign]
  | subnormal _ _ _ _ _ hF hshows => simp [hshows.sign, dyadic_neg_iff, signed_neg_iff hF]
  | @normal _ f _ _ _ _ _ _ hshows =>
    have hsig : 2 ^ (readInputs i).m + f.F ≠ 0 := (Nat.add_pos_left (Nat.two_pow_pos _) _).ne'
    simp [hshows.sign, dyadic_neg_iff, signed_neg_iff hsig]
  | @inf _ f _ _ _ _ _ _ hshows => cases hS : f.S <;> simp [hshows.sign, hS]

/-- Settles O28: the ports of each case, read as numbers. -/
theorem sigAndExpMakeTheValue : Obligations.SigAndExpMakeTheValue := by
  intro P i
  have h := fpUnpack_answers i
  dsimp only
  generalize decodeValue i = v, fpUnpack P i = o, readInputs i = x at h ⊢
  have hman : (patFields x.e x.m x.pat).F = x.pat % 2 ^ x.m := bits_zero_right _ _
  have hlt : x.pat % 2 ^ x.m < 2 ^ x.m := Nat.mod_lt _ (Nat.two_pow_pos _)
  cases h with
  | invalidFormat _ hshows | invalidPattern _ _ _ hshows =>
    simp [hshows.sig, hshows.exp, hshows.isNormal, hshows.isSubnormal]
  | zero _ _ _ _ _ _ hshows | nan _ _ _ _ _ _ hshows =>
    simp [hshows.sig, hshows.exp, hshows.isNormal, hshows.isSubnormal]
  | @inf _ f _ _ _ _ _ _ hshows =>
    cases f.S <;> simp [hshows.sig, hshows.exp, hshows.isNormal, hshows.isSubnormal]
  | subnormal hf _ _ _ hE _ hshows =>
    have hsig := hshows.sig
    have hexp := hshows.exp
    rw [hf, hman] at hsig
    rw [hE, exponentOf_zero] at hexp
    refine ⟨?_, ?_, fun _ => ⟨hsig, hexp⟩, ?_, ?_⟩
    · rw [hsig, pow_succ]
      omega
    · simp [hshows.isNormal]
    · simp [hshows.isSubnormal]
    · rintro q ⟨⟩ -
      exact hshows.value_eq _
  | normal hf _ _ _ hE _ hshows =>
    have hsig := hshows.sig
    have hexp := hshows.exp
    rw [hf, hman] at hsig
    rw [exponentOf_pos _ _ hE, hf] at hexp
    refine ⟨?_, fun _ => ⟨hsig, hexp⟩, ?_, ?_, ?_⟩
    · rw [hsig, pow_succ]
      omega
    · simp [hshows.isSubnormal]
    · simp [hshows.isNormal]
    · rintro q ⟨⟩ -
      exact hshows.value_eq _

/-! ### Settled samples -/

/-- R96, R97: a well-formed decode row for which the host waits completes, and its sample is the input set with the
block's function of it. -/
theorem exec_decodeRow_of_waits {P : Params} {b : Block P} {i : Instr} (hw : i.wf P = true) (ht : i.tag ≠ 1)
    (hb : b.tPd ≤ b.hold) :
    exec i ⟨P, b⟩ = .next ⟨P, b.afterDecode (inputsOf P i)⟩ ∧
      (b.afterDecode (inputsOf P i)).outputs = fpUnpack P (inputsOf P i) ∧
      (b.afterDecode (inputsOf P i)).samples = b.samples ++ [⟨inputsOf P i, fpUnpack P (inputsOf P i), true⟩] := by
  have hset := b.afterDecode_settled_of_waits (inputsOf P i) hb
  have hout := b.afterDecode_outputs_of_settled (inputsOf P i) hset
  have herr : ¬ (b.afterDecode (inputsOf P i)).outputs.err = 0b11#2 := hout ▸ fpUnpack_err_ne_reserved _
  refine ⟨?_, hout, ?_⟩
  · rw [exec_decodeRow ⟨P, b⟩ ht]
    exact (if_pos hw).trans (if_neg herr)
  · rw [b.afterDecode_samples, hset, hout]

/-- Settles O50: both blocks complete with the same sample, which no field of either block enters. -/
theorem settledSamplesDependOnInputsAlone : Obligations.SettledSamplesDependOnInputsAlone := by
  intro P a b i hw ht ha hb
  obtain ⟨hexecA, houtA, hsampA⟩ := exec_decodeRow_of_waits hw ht ha
  obtain ⟨hexecB, houtB, hsampB⟩ := exec_decodeRow_of_waits hw ht hb
  exact ⟨_, _, _, hexecA, hexecB, hsampA, hsampB, by simp, houtA.trans houtB.symm⟩

end Sys2Proof.Machine
end

section
/-! The encoding family (30_encoding.md), I: a word decodes to a transaction exactly when the transaction is
well-formed and the word is its word. -/

namespace Sys2Proof

/-! ### A word is a tag and an input set -/

/-- `i` is a well-formed transaction that is written with the tag `t` and drives the input set `x`. -/
structure Instr.IsSpelled (P : Params) (i : Instr) (t : Nat) (x : InWord) : Prop where
  wf : i.wf P = true
  tag : i.tag = t
  inWord : i.inWord = x

/-- R40: the fields of `IN` do not see the tag above them. -/
theorem unpackIn_mod (P : Params) (v : Nat) : unpackIn P (v % 2 ^ P.inw) = unpackIn P v := by
  rw [← packIn_unpackIn, unpackIn_packIn (unpackIn_fits P v)]

section
variable {P : Params} {x : InWord} (h : x.fits P) (t : Nat)
include h

theorem taggedWord_div : (t * 2 ^ P.inw + packIn P x) / 2 ^ P.inw = t := by
  rw [Nat.add_comm, Nat.add_mul_div_right _ _ (Nat.two_pow_pos _), Nat.div_eq_of_lt (packIn_lt h), Nat.zero_add]

theorem unpackIn_taggedWord : unpackIn P (t * 2 ^ P.inw + packIn P x) = x := by
  rw [← unpackIn_mod, Nat.add_comm, Nat.add_mul_mod_self_right, Nat.mod_eq_of_lt (packIn_lt h), unpackIn_packIn h]

end

theorem encode_of_isSpelled {P : Params} {i : Instr} {v : Nat}
    (h : i.IsSpelled P (v / 2 ^ P.inw) (unpackIn P v)) : encode P i = v := by
  rw [encode, h.tag, h.inWord, packIn_unpackIn, Nat.div_add_mod']

/-! ### The bare `IN` word: class rows and error rows (R41) -/

/-- R41: the class row of a pattern, from its three fields. `classify_wellFormed` ties it to the decoder. -/
def classRow (e m : Nat) (ieee S : Bool) (E F : Nat) : Instr :=
  if E = 0 then
    if F = 0 then .zero e m ieee S
    else if ieee then .subnormalIeee e m S F
    else .subnormalRef e m S F
  else if E = allOnesExp e then
    if F = 0 then
      if S then .infNeg e m ieee else .infPos e m ieee
    else .nan e m ieee S F
  else .normal e m ieee S E F

section
variable {P : Params}

theorem classify_invalidFormat {x : InWord} (h : formatValid P x.s x.e x.m = false) :
    classify P x = .invalidFormat x.s x.e x.m x.ieee x.pat := by
  simp [classify, h]

theorem classify_invalidPattern {x : InWord} (h : formatValid P x.s x.e x.m = true)
    (hp : 2 ^ (1 + x.e + x.m) ≤ x.pat) : classify P x = .invalidPattern x.e x.m x.ieee x.pat := by
  simp [classify, h, hp]

theorem classify_wellFormed {x : InWord} (h : formatValid P x.s x.e x.m = true)
    (hp : x.pat < 2 ^ (1 + x.e + x.m)) :
    classify P x = classRow x.e x.m x.ieee (patFields x.e x.m x.pat).S (patFields x.e x.m x.pat).E
      (patFields x.e x.m x.pat).F := by
  rw [classify, if_pos h, if_neg hp.not_ge]
  rfl

variable {e m E F : Nat}

/-- R41: each class row meets its own match condition and drives the pattern of its fields. -/
theorem classRow_isSpelled (ieee S : Bool) (hl : P.legal e m = true) (hE : E < 2 ^ e) (hF : F < 2 ^ m) :
    (classRow e m ieee S E F).IsSpelled P 0 ⟨ieee, 1, e, m, patOf e m S E F⟩ := by
  unfold classRow
  by_cases hE0 : E = 0
  · subst hE0
    rw [if_pos rfl]
    by_cases hF0 : F = 0
    · subst hF0
      exact ⟨hl, rfl, rfl⟩
    · rw [if_neg hF0]
      cases ieee <;> exact ⟨by simp [Instr.wf, hl, hF0, hF], rfl, rfl⟩
  · rw [if_neg hE0]
    by_cases hones : E = allOnesExp e
    · subst hones
      rw [if_pos rfl]
      by_cases hF0 : F = 0
      · subst hF0
        cases S <;> exact ⟨hl, rfl, rfl⟩
      · rw [if_neg hF0]
        exact ⟨by simp [Instr.wf, hl, hF0, hF], rfl, rfl⟩
    · rw [if_neg hones]
      have hlo : 1 ≤ E := Nat.pos_of_ne_zero hE0
      have hhi : E + 1 < 2 ^ e := by
        rw [allOnesExp] at hones
        omega
      exact ⟨by simp [Instr.wf, hl, hlo, hhi, hF], rfl, rfl⟩

/-- R41, R75: the row that an input set selects is well-formed and drives that set. -/
theorem classify_isSpelled {x : InWord} (hx : x.fits P) : (classify P x).IsSpelled P 0 x := by
  obtain ⟨hfs, hfe, hfm, hfp⟩ := hx
  have hpat : P.patFits x.pat = true := Params.patFits_iff.2 hfp
  cases hv : formatValid P x.s x.e x.m with
  | false =>
    have hcfg : P.cfgFits x.s x.e x.m = true := Params.cfgFits_iff.2 ⟨hfs, hfe, hfm⟩
    rw [classify_invalidFormat hv]
    exact ⟨by simp [Instr.wf, hcfg, hpat, illegal_iff_not_formatValid, hv], rfl, rfl⟩
  | true =>
    obtain ⟨hs, hl⟩ := formatValid_iff_legal.1 hv
    rcases Nat.lt_or_ge x.pat (2 ^ (1 + x.e + x.m)) with hp | hp
    · obtain ⟨hE, hF⟩ := patFields_lt x.e x.m x.pat
      have h := classRow_isSpelled x.ieee (patFields x.e x.m x.pat).S hl hE hF
      rwa [← classify_wellFormed hv hp, patOf_patFields hp, ← hs] at h
    · rw [classify_invalidPattern hv hp]
      exact ⟨by simp [Instr.wf, hl, hpat, hp], rfl, by rw [Instr.inWord, ← hs]⟩

theorem classify_patOf (ieee S : Bool) (hl : P.legal e m = true) (hE : E < 2 ^ e) (hF : F < 2 ^ m) :
    classify P ⟨ieee, 1, e, m, patOf e m S E F⟩ = classRow e m ieee S E F := by
  have hv : formatValid P (1 : Nat) e m = true := formatValid_iff_legal.2 ⟨rfl, hl⟩
  rw [classify_wellFormed hv (patOf_lt hE hF), patFields_patOf hE hF]

end

/-- The match condition that the denormalized rows and NAN share. -/
theorem nonzeroMantissa_of_wf {P : Params} {e m F : Nat}
    (h : (P.legal e m && decide (F ≠ 0) && decide (F < 2 ^ m)) = true) : P.legal e m = true ∧ F ≠ 0 ∧ F < 2 ^ m := by
  simpa [and_assoc] using h

/-- R41, R45: a class row or error row is the one that its input set selects. -/
theorem classify_inWord {P : Params} : ∀ {i : Instr}, i.wf P = true → i.tag = 0 → classify P i.inWord = i
  | .zero e m ieee S, hw, _ =>
    (classify_patOf ieee S hw (Nat.two_pow_pos e) (Nat.two_pow_pos m)).trans (by simp [classRow])
  | .subnormalRef e m S F, hw, _ => by
    obtain ⟨hl, h0, hF⟩ := nonzeroMantissa_of_wf hw
    exact (classify_patOf false S hl (Nat.two_pow_pos e) hF).trans (by simp [classRow, h0])
  | .subnormalIeee e m S F, hw, _ => by
    obtain ⟨hl, h0, hF⟩ := nonzeroMantissa_of_wf hw
    exact (classify_patOf true S hl (Nat.two_pow_pos e) hF).trans (by simp [classRow, h0])
  | .normal e m ieee S E F, hw, _ => by
    simp only [Instr.wf, Bool.and_eq_true, decide_eq_true_eq] at hw
    obtain ⟨⟨⟨hl, h1⟩, hE⟩, hF⟩ := hw
    have h0 : E ≠ 0 := by omega
    have hne : E ≠ allOnesExp e := by rw [allOnesExp]; omega
    exact (classify_patOf ieee S hl (by omega) hF).trans (by simp [classRow, h0, hne])
  | .infPos e m ieee, hw, _ => by
    have he := Machine.allOnesExp_pos (Params.legal_iff.1 hw).1
    exact (classify_patOf ieee false hw (Laws.FitsPorts.allOnesExp_lt e) (Nat.two_pow_pos m)).trans
      (by simp [classRow, he.ne'])
  | .infNeg e m ieee, hw, _ => by
    have he := Machine.allOnesExp_pos (Params.legal_iff.1 hw).1
    exact (classify_patOf ieee true hw (Laws.FitsPorts.allOnesExp_lt e) (Nat.two_pow_pos m)).trans
      (by simp [classRow, he.ne'])
  | .nan e m ieee S F, hw, _ => by
    obtain ⟨hl, h0, hF⟩ := nonzeroMantissa_of_wf hw
    have he := Machine.allOnesExp_pos (Params.legal_iff.1 hl).1
    exact (classify_patOf ieee S hl (Laws.FitsPorts.allOnesExp_lt e) hF).trans
      (by simp [classRow, he.ne', h0])
  | .invalidFormat s e m ieee pat, hw, _ =>
    classify_invalidFormat (x := ⟨ieee, s, e, m, pat⟩) (illegal_iff_not_formatValid.1 (Bool.and_eq_true_iff.1 hw).2)
  | .invalidPattern e m ieee pat, hw, _ => by
    simp only [Instr.wf, Bool.and_eq_true, decide_eq_true_eq] at hw
    obtain ⟨⟨hl, -⟩, hp⟩ := hw
    exact classify_invalidPattern (x := ⟨ieee, 1, e, m, pat⟩) (formatValid_iff_legal.2 ⟨rfl, hl⟩) hp

/-! ### The named formats (R49) -/

/-- `row` writes the named format of the widths `(1, e, m)` with the tag `t`. -/
structure IsNamedRow (row : Bool → Nat → Instr) (t e m : Nat) : Prop where
  wf : ∀ P ieee pat, (row ieee pat).wf P = (P.cfgFits 1 e m && P.patFits pat)
  tag : ∀ ieee pat, (row ieee pat).tag = t
  inWord : ∀ ieee pat, (row ieee pat).inWord = ⟨ieee, 1, e, m, pat⟩

theorem isNamedRow_e8m23 : IsNamedRow .e8m23 3 8 23 := ⟨fun _ _ _ => rfl, fun _ _ => rfl, fun _ _ => rfl⟩
theorem isNamedRow_e8m7 : IsNamedRow .e8m7 4 8 7 := ⟨fun _ _ _ => rfl, fun _ _ => rfl, fun _ _ => rfl⟩
theorem isNamedRow_e5m10 : IsNamedRow .e5m10 5 5 10 := ⟨fun _ _ _ => rfl, fun _ _ => rfl, fun _ _ => rfl⟩
theorem isNamedRow_e4m3 : IsNamedRow .e4m3 6 4 3 := ⟨fun _ _ _ => rfl, fun _ _ => rfl, fun _ _ => rfl⟩
theorem isNamedRow_e5m2 : IsNamedRow .e5m2 7 5 2 := ⟨fun _ _ _ => rfl, fun _ _ => rfl, fun _ _ => rfl⟩
theorem isNamedRow_e2m1 : IsNamedRow .e2m1 8 2 1 := ⟨fun _ _ _ => rfl, fun _ _ => rfl, fun _ _ => rfl⟩

theorem IsNamedRow.isSpelled {row : Bool → Nat → Instr} {t e m : Nat} (hrow : IsNamedRow row t e m) {P : Params}
    {x : InWord} (hx : x.fits P) {i : Instr} (h : named x e m row = .ok i) : i.IsSpelled P t x := by
  obtain ⟨hs, he, hm, hp⟩ := hx
  unfold named at h
  split at h
  · next hw =>
    obtain ⟨h1, rfl, rfl⟩ := hw
    cases h
    refine ⟨?_, hrow.tag _ _, by rw [hrow.inWord, ← h1]⟩
    rw [hrow.wf, Params.cfgFits_iff.2 ⟨by decide, he, hm⟩, Params.patFits_iff.2 hp]
    rfl
  · cases h

/-! ### The decoder, exactly -/

/-- A word that decodes spells the transaction that it decodes to. -/
theorem isSpelled_of_decode {P : Params} {v : Nat} {i : Instr} (h : decode P v = .ok i) :
    i.IsSpelled P (v / 2 ^ P.inw) (unpackIn P v) := by
  have hx := unpackIn_fits P v
  have ⟨hs, he, hm, hp⟩ := hx
  have hcfg := Params.cfgFits_iff.2 ⟨hs, he, hm⟩
  have hpat := Params.patFits_iff.2 hp
  simp only [decode] at h
  generalize unpackIn P v = x, v / 2 ^ P.inw = t at *
  split at h
  · cases h
    exact classify_isSpelled hx
  · split at h
    · next hz =>
      cases h
      exact ⟨hcfg, rfl, by rw [Instr.inWord, ← hz]⟩
    · cases h
  · cases h
    exact ⟨by simp [Instr.wf, hcfg, hpat], rfl, rfl⟩
  · exact isNamedRow_e8m23.isSpelled hx h
  · exact isNamedRow_e8m7.isSpelled hx h
  · exact isNamedRow_e5m10.isSpelled hx h
  · exact isNamedRow_e4m3.isSpelled hx h
  · exact isNamedRow_e5m2.isSpelled hx h
  · exact isNamedRow_e2m1.isSpelled hx h
  · cases h

/-- A word that spells a transaction decodes to it. -/
theorem decode_of_isSpelled {P : Params} {v : Nat} {i : Instr}
    (h : i.IsSpelled P (v / 2 ^ P.inw) (unpackIn P v)) : decode P v = .ok i := by
  obtain ⟨hw, ht, hx⟩ := h
  simp only [decode, ← ht, ← hx]
  cases i with
  | formatCheck | decode => rfl
  | e8m23 | e8m7 | e5m10 | e4m3 | e5m2 | e2m1 => rfl
  | zero | subnormalRef | subnormalIeee | normal | infPos | infNeg | nan | invalidFormat | invalidPattern =>
    exact congrArg Except.ok (classify_inWord hw rfl)

theorem decode_eq_ok_iff {P : Params} {v : Nat} {i : Instr} :
    decode P v = .ok i ↔ i.IsSpelled P (v / 2 ^ P.inw) (unpackIn P v) :=
  ⟨isSpelled_of_decode, decode_of_isSpelled⟩

/-- Settles O4: the word of a well-formed transaction spells it, since its input set fits the ports. -/
theorem decodeOfEncodeIsTheTransaction : Obligations.DecodeOfEncodeIsTheTransaction := by
  intro P i hw
  have hfits := Machine.inWord_fits hw
  exact decode_eq_ok_iff.2 ⟨hw, (taggedWord_div hfits _).symm, (unpackIn_taggedWord hfits _).symm⟩

/-- Settles O5: the tag and the input set of a word are all of the word. -/
theorem encodeOfDecodeIsTheWord : Obligations.EncodeOfDecodeIsTheWord := by
  intro P v i h
  have hsp := decode_eq_ok_iff.1 h
  exact ⟨hsp.wf, encode_of_isSpelled hsp⟩

/-- Settles O6: `classify` selects the row, and any row that drives the input set is the one that `classify` selects. -/
theorem everyInputWordSelectsOneRow : Obligations.EveryInputWordSelectsOneRow := by
  intro P x hs he hm hp
  have hx : x.fits P := ⟨hs, he, hm, hp⟩
  have hsel := classify_isSpelled hx
  refine ⟨classify P x, ?_, hsel.tag, hsel.inWord, ?_⟩
  · have hdec := decodeOfEncodeIsTheTransaction P _ hsel.wf
    rwa [encode, hsel.tag, hsel.inWord, Nat.zero_mul, Nat.zero_add] at hdec
  · intro j hwf htag hj
    rw [← hj, classify_inWord hwf htag]

end Sys2Proof
end

section
/-! The encoding family (30_encoding.md), II: where the fields stand, and words written out. -/

namespace Sys2Proof

theorem bits_testBit (v lo n k : Nat) : (bits v lo n).testBit k = (decide (k < n) && v.testBit (lo + k)) := by
  rw [bits, Nat.testBit_mod_two_pow, Nat.testBit_div_two_pow, Nat.add_comm]

/-- Settles O2: each field is a slice of the pattern, `F` the one from bit 0. -/
theorem fieldsOfAPatternBitByBit : Obligations.FieldsOfAPatternBitByBit := by
  intro e m pat k
  refine ⟨Machine.patFields_S_eq_testBit e m pat, bits_testBit pat m e k, ?_⟩
  have hF := bits_testBit pat 0 m k
  rwa [Nat.zero_add] at hF

/-- Settles O3: the packed word is shorter than `2 ^ inw`, and unpacking it gives each field back from its place. -/
theorem inWordLayoutOfTheReferencePart : Obligations.InWordLayoutOfTheReferencePart := by
  intro x hs he hm hp
  have hx : x.fits Params.reference := ⟨hs, he, hm, hp⟩
  have hlt : packIn Params.reference x < 2 ^ 44 := packIn_lt hx
  have hun := unpackIn_packIn hx
  have hieee : decide (bits (packIn Params.reference x) 43 1 = 1) = x.ieee := congrArg InWord.ieee hun
  have hpat : bits (packIn Params.reference x) 0 32 = x.pat := congrArg InWord.pat hun
  refine ⟨hlt, ?_, congrArg InWord.s hun, congrArg InWord.e hun, congrArg InWord.m hun, ?_⟩
  · rw [← hieee, bits_one_eq_one_toNat, bits]
    omega
  · rwa [bits_zero_right] at hpat

/-- Settles O1: each word is decoded as written. -/
theorem tableWordsDecodeToTheirRows : Obligations.TableWordsDecodeToTheirRows := by
  refine ⟨?_, ?_, ?_, ?_, ?_, ?_, ?_, ?_, ?_, ?_, ?_, ?_, ?_⟩ <;> decide

end Sys2Proof
end

section
/-! The encoding family (30_encoding.md), III: how words run. A named format is the DECODE row of its widths, and a word
that spells nothing is refused. -/

namespace Sys2Proof.Machine

/-- Settles O8: of everything a step can do, only the refusal has a word that spells no transaction. -/
theorem stepRefusesWordsThatSpellNothing : Obligations.StepRefusesWordsThatSpellNothing := by
  intro s t rest why hp hd
  rcases step_cases s with ⟨h, -⟩ | ⟨t', rest', h, ⟨i, hi, -⟩ | ⟨why', hw, hstep⟩⟩ <;>
    rw [hp] at h <;> cases h
  · rw [hd] at hi
    cases hi
  · rw [hd] at hw
    cases hw
    exact hstep

/-- R74: a decode row is known by its input set and by when it is well-formed. -/
theorem exec_eq_of_inWord_eq (s : State) {i j : Instr} (hi : i.tag ≠ 1) (hj : j.tag ≠ 1)
    (hw : i.wf s.params = j.wf s.params) (hx : i.inWord = j.inWord) : exec i s = exec j s := by
  rw [exec_decodeRow s hi, exec_decodeRow s hj, hw, inputsOf, inputsOf, hx]

/-- R95, R99: the state after a transaction for which the host waits, field by field. -/
theorem withBlock_afterDecode_of_waits {s : State} (h : HostWaits s) (i : Inputs s.params) :
    s.withBlock (s.block.afterDecode i) = s.sampled i (fpUnpack s.params i) := by
  have hset : ((s.block.drive i).settleFor s.block.hold (fpUnpack s.params i)).settled = true :=
    s.block.afterDecode_settled_of_waits i h
  have hwaited : (s.block.drive i).settleFor s.block.hold (fpUnpack s.params i) =
      { s.block.drive i with stable := s.block.stableAfter i, outputs := fpUnpack s.params i } :=
    if_pos ⟨rfl, Nat.le_add_left_of_le h⟩
  rw [hwaited] at hset
  rw [Block.afterDecode, hwaited, hset]
  rfl

/-- R95, R99: a well-formed decode row for which the host waits completes, and shows the block's function of its input
set. -/
theorem completes_decodeRow {s : State} {i : Instr} (hw : i.wf s.params = true) (ht : i.tag ≠ 1) (h : HostWaits s) :
    Completes i s i.inWord (fun o => o = fpUnpack s.params (inputsOf s.params i)) := by
  obtain ⟨hexec, -, -⟩ := exec_decodeRow_of_waits hw ht h
  exact ⟨_, _, hexec.trans (congrArg Host.Outcome.next (withBlock_afterDecode_of_waits h _)),
    readInputs_inputsOf hw, rfl⟩

/-- R49: a row that writes a named format. -/
theorem namedRow_runs_as_decode {row : Bool → Nat → Instr} {t e m : Nat} (hrow : IsNamedRow row t e m) (ht : t ≠ 1)
    (s : State) (ieee : Bool) (pat : Nat) (he : e < 2 ^ s.params.ebw) (hm : m < 2 ^ s.params.mbw)
    (hp : pat < 2 ^ s.params.w) :
    exec (row ieee pat) s = exec (.decode 1 e m ieee pat) s ∧
      (HostWaits s → Completes (row ieee pat) s ⟨ieee, 1, e, m, pat⟩
        (fun o => ∃ i : Inputs s.params, readInputs i = ⟨ieee, 1, e, m, pat⟩ ∧ o = fpUnpack s.params i)) := by
  have hcfg : s.params.cfgFits 1 e m = true := Params.cfgFits_iff.2 ⟨by decide, he, hm⟩
  have hpat : s.params.patFits pat = true := Params.patFits_iff.2 hp
  have hw : (row ieee pat).wf s.params = true := by rw [hrow.wf, hcfg, hpat, Bool.and_self]
  have htag : (row ieee pat).tag ≠ 1 := (hrow.tag ieee pat).trans_ne ht
  have hx := hrow.inWord ieee pat
  refine ⟨exec_eq_of_inWord_eq s htag (by simp [Instr.tag]) (hrow.wf _ _ _) hx, fun hwait => ?_⟩
  obtain ⟨inp, out, hexec, hread, hout⟩ := completes_decodeRow hw htag hwait
  exact ⟨inp, out, hexec, hread.trans hx, _, (readInputs_inputsOf hw).trans hx, hout⟩

/-- Settles O23: each of the six rows writes its named format. -/
theorem namedFormatsMeanTheirWidths : Obligations.NamedFormatsMeanTheirWidths :=
  ⟨namedRow_runs_as_decode isNamedRow_e8m23 (by decide), namedRow_runs_as_decode isNamedRow_e8m7 (by decide),
    namedRow_runs_as_decode isNamedRow_e5m10 (by decide), namedRow_runs_as_decode isNamedRow_e4m3 (by decide),
    namedRow_runs_as_decode isNamedRow_e5m2 (by decide), namedRow_runs_as_decode isNamedRow_e2m1 (by decide)⟩

end Sys2Proof.Machine
end

section
/-! The encoding family (30_encoding.md), IV: the class of a pattern by its fields, by masks and by ranges, how many
patterns each class has, and what narrow formats leave of the classes. -/

namespace Sys2Proof.Machine

/-! ### Class flags by fields -/

/-- R41: the class flags that `o` shows, by the exponent and the mantissa field of a pattern of exponent width `e`. -/
structure FlagsByFields {P : Params} (o : Outputs P) (e : Nat) (f : Fields) : Prop where
  isZero : o.isZero = true ↔ f.E = 0 ∧ f.F = 0
  isSubnormal : o.isSubnormal = true ↔ f.E = 0 ∧ f.F ≠ 0
  isNormal : o.isNormal = true ↔ f.E ≠ 0 ∧ f.E ≠ allOnesExp e
  isInf : o.isInf = true ↔ f.E = allOnesExp e ∧ f.F = 0
  isNan : o.isNan = true ↔ f.E = allOnesExp e ∧ f.F ≠ 0

/-- R41: the class of a pattern of exponent width `e` with the fields `f`. `Answers.shows_classOf` ties it
to the block. -/
def classOf (e : Nat) (f : Fields) : ResultClass :=
  if f.E = allOnesExp e then
    if f.F = 0 then .inf else .nan
  else if f.E = 0 then
    if f.F = 0 then .zero else .subnormal
  else .normal

/-- R41: with no error the format is legal and the ports show the class of the fields. -/
theorem Answers.shows_classOf {P : Params} {x : InWord} {v : Except DecodeError DecodedValue} {o : Outputs P}
    (h : Answers P x v o) (herr : o.err = 0b00#2) :
    P.legal x.e x.m = true ∧ ∃ sign sig exponent,
      Shows o (classOf x.e (patFields x.e x.m x.pat)) (patFields x.e x.m x.pat) sign sig exponent := by
  have hones (hl : P.legal x.e x.m = true) := (allOnesExp_pos (Params.legal_iff.1 hl).1).ne
  cases h with
  | invalidFormat _ hshows | invalidPattern _ _ _ hshows => simp [hshows.err] at herr
  | zero hf _ hl _ hE hF hshows | subnormal hf _ hl _ hE hF hshows =>
    exact ⟨hl, _, _, _, by simpa [classOf, ← hf, hE, hF, hones hl] using hshows⟩
  | normal hf _ hl _ hE hF hshows | inf hf _ hl _ hE hF hshows | nan hf _ hl _ hE hF hshows =>
    exact ⟨hl, _, _, _, by simpa [classOf, ← hf, hE, hF] using hshows⟩

theorem Shows.flagsByFields {P : Params} {o : Outputs P} {e : Nat} {f g : Fields} {sign : Bool} {sig : Nat}
    {exponent : Int} (he : 1 ≤ e) (h : Shows o (classOf e f) g sign sig exponent) : FlagsByFields o e f := by
  have hones := (allOnesExp_pos he).ne'
  obtain ⟨S, E, F⟩ := f
  obtain ⟨-, hzero, hsubnormal, hnormal, hinf, hnan, -⟩ := h
  by_cases hE : E = allOnesExp e
  · by_cases hF : F = 0 <;> constructor <;> simp [hzero, hsubnormal, hnormal, hinf, hnan, classOf, hE, hF, hones]
  · by_cases hE0 : E = 0
    · by_cases hF : F = 0 <;> constructor <;>
        simp [hzero, hsubnormal, hnormal, hinf, hnan, classOf, hE0, hF, hones.symm]
    · constructor <;> simp [hzero, hsubnormal, hnormal, hinf, hnan, classOf, hE, hE0]

/-- R41: the class flags of every result. -/
theorem fpUnpack_flagsByFields {P : Params} (i : Inputs P) (herr : (fpUnpack P i).err = 0b00#2) :
    FlagsByFields (fpUnpack P i) (readInputs i).e (patFields (readInputs i).e (readInputs i).m (readInputs i).pat) := by
  obtain ⟨hl, _, _, _, hshows⟩ := (fpUnpack_answers i).shows_classOf herr
  exact hshows.flagsByFields (Params.legal_iff.1 hl).1

/-! ### Class flags by masks (R41) -/

theorem mul_two_pow_add_eq_iff {a b x k : Nat} (hx : x < 2 ^ k) : a * 2 ^ k + x = b * 2 ^ k ↔ a = b ∧ x = 0 := by
  constructor
  · intro h
    have hx0 : x = 0 := by
      have := congrArg (· % 2 ^ k) h
      simpa [Nat.add_mod, Nat.mod_eq_of_lt hx] using this
    subst hx0
    exact ⟨Nat.eq_of_mul_eq_mul_right (Nat.two_pow_pos k) h, rfl⟩
  · rintro ⟨rfl, rfl⟩
    rfl

section
variable (e m pat : Nat)

/-- R41: `pat & MASK_F` is the mantissa field. -/
theorem and_maskF : pat &&& (2 ^ m - 1) = (patFields e m pat).F := by
  rw [Nat.and_two_pow_sub_one_eq_mod]
  exact (bits_zero_right pat m).symm

/-- R41: `pat & MASK_E` is the exponent field in its place. -/
theorem and_maskE : pat &&& (2 ^ e - 1) * 2 ^ m = (patFields e m pat).E * 2 ^ m := by
  apply Nat.eq_of_testBit_eq
  intro k
  simp only [patFields, Nat.testBit_and, Nat.testBit_mul_two_pow, Nat.testBit_two_pow_sub_one, bits_testBit]
  by_cases h : m ≤ k
  · simp [h, Bool.and_comm]
  · simp [h]

/-- R41: `pat & (MASK_E | MASK_F)` is the pattern without its sign. -/
theorem and_maskE_or_maskF : pat &&& ((2 ^ e - 1) * 2 ^ m ||| (2 ^ m - 1)) =
    (patFields e m pat).E * 2 ^ m + (patFields e m pat).F := by
  obtain ⟨-, hF⟩ := patFields_lt e m pat
  rw [Nat.and_or_distrib_left, and_maskE, and_maskF e, Nat.mul_comm, Nat.two_pow_add_eq_or_of_lt hF]

end

/-- Settles O34: each masked pattern is made of the fields, which tell the class. -/
theorem classFlagsByPatternMasks : Obligations.ClassFlagsByPatternMasks := by
  intro P i herr
  have h := fpUnpack_flagsByFields i herr
  obtain ⟨-, hF⟩ := patFields_lt (readInputs i).e (readInputs i).m (readInputs i).pat
  dsimp only
  rw [and_maskE_or_maskF, and_maskE, and_maskF (readInputs i).e, h.isZero, h.isSubnormal, h.isNormal, h.isInf, h.isNan,
    mul_two_pow_add_eq_iff hF]
  simp [allOnesExp]

/-! ### Classes as ranges of patterns (R42) -/

/-- R35: the fields of a pattern from its sign and its low bits. -/
theorem patFields_sign_add {e m p : Nat} (S : Bool) (hp : p < 2 ^ (e + m)) :
    patFields e m (S.toNat * 2 ^ (e + m) + p) = ⟨S, p / 2 ^ m, p % 2 ^ m⟩ := by
  have hE : p / 2 ^ m < 2 ^ e := Nat.div_lt_of_lt_mul (by rwa [← pow_add, Nat.add_comm])
  have hF : p % 2 ^ m < 2 ^ m := Nat.mod_lt _ (Nat.two_pow_pos m)
  have hpat : S.toNat * 2 ^ (e + m) + p = patOf e m S (p / 2 ^ m) (p % 2 ^ m) := by
    rw [patOf, Nat.add_mul, Nat.mul_assoc, ← pow_add, Nat.add_assoc, Nat.div_add_mod']
  rw [hpat, patFields_patOf hE hF]

theorem sign_add_lt {e m p : Nat} (S : Bool) (hp : p < 2 ^ (e + m)) :
    S.toNat * 2 ^ (e + m) + p < 2 ^ (1 + e + m) := by
  have hS : S.toNat * 2 ^ (e + m) ≤ 1 * 2 ^ (e + m) := Nat.mul_le_mul_right _ (Bool.toNat_le S)
  rw [Nat.add_assoc, Nat.pow_add 2 1 (e + m)]
  omega

theorem fpUnpack_err_of_wellFormed {P : Params} {i : Inputs P} (hs : (readInputs i).s = 1)
    (hl : P.legal (readInputs i).e (readInputs i).m = true)
    (hp : (readInputs i).pat < 2 ^ (1 + (readInputs i).e + (readInputs i).m)) : (fpUnpack P i).err = 0b00#2 := by
  obtain ⟨herr, -⟩ := errNamesTheOutcome P i
  exact herr.2 ⟨_, decodeValue_wellFormed hs hl hp⟩

/-- R42: the conditions on the two fields as ranges of the low bits `p` that they are cut from. -/
theorem FlagsByFields.ranges {P : Params} {o : Outputs P} {e m p : Nat} {S : Bool} (hp : p < 2 ^ (e + m))
    (h : FlagsByFields o e ⟨S, p / 2 ^ m, p % 2 ^ m⟩) :
    (o.isZero = true ↔ p = 0) ∧
    (o.isSubnormal = true ↔ 1 ≤ p ∧ p < 2 ^ m) ∧
    (o.isNormal = true ↔ 2 ^ m ≤ p ∧ p < (2 ^ e - 1) * 2 ^ m) ∧
    (o.isInf = true ↔ p = (2 ^ e - 1) * 2 ^ m) ∧
    (o.isNan = true ↔ (2 ^ e - 1) * 2 ^ m < p) := by
  have hE : p / 2 ^ m < 2 ^ e := Nat.div_lt_of_lt_mul (by rwa [← pow_add, Nat.add_comm])
  have hF : p % 2 ^ m < 2 ^ m := Nat.mod_lt _ (Nat.two_pow_pos m)
  have hlow : p / 2 ^ m = 0 ↔ p < 2 ^ m := by simp
  have hbelow : p / 2 ^ m < 2 ^ e - 1 ↔ p < (2 ^ e - 1) * 2 ^ m := Nat.div_lt_iff_lt_mul (Nat.two_pow_pos m)
  have hmultiple (k : Nat) : p / 2 ^ m = k ∧ p % 2 ^ m = 0 ↔ p = k * 2 ^ m := by
    rw [← mul_two_pow_add_eq_iff hF, Nat.div_add_mod']
  have hzero := hmultiple 0
  have htop := hmultiple (2 ^ e - 1)
  rw [Nat.zero_mul] at hzero
  rw [h.isZero, h.isSubnormal, h.isNormal, h.isInf, h.isNan]
  dsimp only [allOnesExp]
  refine ⟨hzero, ?_, ?_, htop, ?_⟩ <;> omega

/-- Settles O35: the fields are the quotient and the remainder of the low bits by `2 ^ m`. -/
theorem classesAreContiguousRanges : Obligations.ClassesAreContiguousRanges := by
  intro P i e m p ieee S he heP hmP hp hin
  have herr := fpUnpack_err_of_wellFormed (i := i)
  obtain ⟨hraw, -⟩ := rawOutputsAreTheFields P i
  have hflags := fpUnpack_flagsByFields i
  rw [hin] at herr hflags hraw
  have h0 := herr rfl (Params.legal_iff.2 ⟨he, heP, hmP⟩) (sign_add_lt S hp)
  obtain ⟨hsign, -, -⟩ := hraw h0
  have h := hflags h0
  rw [← patFields_S_eq_testBit, patFields_sign_add S hp] at hsign
  rw [patFields_sign_add S hp] at h
  exact ⟨hsign, h.ranges hp⟩

/-! ### How many patterns each class has (R42) -/

/-- What holds of the low parts in `[a, b)` under either top bit holds of `2 * (b - a)` numbers. -/
theorem card_filter_range_two_mul {n a b : Nat} {p : Nat → Prop} [DecidablePred p] (hb : b ≤ n)
    (h : ∀ (S : Bool) (q : Nat), q < n → (p (S.toNat * n + q) ↔ a ≤ q ∧ q < b)) :
    ((Finset.range (2 * n)).filter p).card = 2 * (b - a) := by
  have hhalf (S : Bool) : ∑ q ∈ Finset.range n, (if p (S.toNat * n + q) then 1 else 0) = b - a := by
    have hIco : (Finset.range n).filter (fun q => p (S.toNat * n + q)) = Finset.Ico a b := by
      ext q
      simp only [Finset.mem_filter, Finset.mem_range, Finset.mem_Ico]
      constructor
      · rintro ⟨hq, hpq⟩
        exact (h S q hq).1 hpq
      · intro hq
        have hqn : q < n := hq.2.trans_le hb
        exact ⟨hqn, (h S q hqn).2 hq⟩
    rw [← Finset.card_filter, hIco, Nat.card_Ico]
  have hlow := hhalf false
  have hhigh := hhalf true
  simp only [Bool.toNat_false, Bool.toNat_true, Nat.zero_mul, Nat.zero_add, Nat.one_mul] at hlow hhigh
  rw [Finset.card_filter, Nat.two_mul, Finset.sum_range_add, hlow, hhigh, Nat.two_mul]

/-- R42: a class flag that is 1 on the low parts in `[a, b)`, under either sign. -/
theorem classSize_eq {P : Params} {e m a b : Nat} {ieee : Bool} (hl : P.legal e m = true) (flag : Outputs P → Bool)
    (hb : b ≤ 2 ^ (e + m))
    (h : ∀ (i : Inputs P) (S : Bool) (q : Nat), q < 2 ^ (e + m) →
      readInputs i = ⟨ieee, 1, e, m, S.toNat * 2 ^ (e + m) + q⟩ →
      (flag (fpUnpack P i) = true ↔ a ≤ q ∧ q < b)) :
    ((Finset.range (2 ^ (1 + e + m))).filter
      (fun p => flag (fpUnpack P (levels P ⟨ieee, 1, e, m, p⟩)) = true)).card = 2 * (b - a) := by
  rw [Nat.add_assoc, Nat.pow_add 2 1 (e + m), pow_one]
  refine card_filter_range_two_mul hb fun S q hq => h _ S q hq ?_
  exact readInputs_levels (Laws.FitsPorts.fits_of_legal hl (sign_add_lt S hq))

/-- Settles O36: twice the length of each class's range. -/
theorem classSizes : Obligations.ClassSizes := by
  intro P e m ieee he heP hmP
  have hl : P.legal e m = true := Params.legal_iff.2 ⟨he, heP, hmP⟩
  have hones := allOnesExp_pos he
  have hM := Nat.two_pow_pos m
  have htop : (2 ^ e - 1) * 2 ^ m + 2 ^ m = 2 ^ (e + m) := by
    rw [← Nat.succ_mul, Nat.succ_eq_add_one, Nat.sub_add_cancel (Nat.one_le_two_pow), pow_add]
  have hmid : (2 ^ e - 2) * 2 ^ m + 2 ^ m = (2 ^ e - 1) * 2 ^ m := by
    rw [← Nat.succ_mul]
    congr 1
    rw [allOnesExp] at hones
    omega
  have hranges (i : Inputs P) (S : Bool) (q : Nat) := classesAreContiguousRanges P i e m q ieee S he heP hmP
  dsimp only
  refine ⟨?_, ?_, ?_, ?_, ?_⟩
  · refine classSize_eq (a := 0) (b := 1) hl _ (by omega) fun i S q hq hi => ?_
    obtain ⟨-, hzero, -⟩ := hranges i S q hq hi
    rw [hzero]
    omega
  · refine classSize_eq (a := 1) (b := 2 ^ m) hl _ (by omega) fun i S q hq hi => ?_
    obtain ⟨-, -, hsubnormal, -⟩ := hranges i S q hq hi
    exact hsubnormal
  · refine (classSize_eq (a := 2 ^ m) (b := (2 ^ e - 1) * 2 ^ m) hl _ (by omega) fun i S q hq hi => ?_).trans ?_
    · obtain ⟨-, -, -, hnormal, -⟩ := hranges i S q hq hi
      exact hnormal
    · rw [← hmid, Nat.add_sub_cancel, Nat.mul_assoc]
  · refine (classSize_eq (a := (2 ^ e - 1) * 2 ^ m) (b := (2 ^ e - 1) * 2 ^ m + 1) hl _ (by omega)
      fun i S q hq hi => ?_).trans (by omega)
    obtain ⟨-, -, -, -, hinf, -⟩ := hranges i S q hq hi
    rw [hinf]
    omega
  · refine (classSize_eq (a := (2 ^ e - 1) * 2 ^ m + 1) (b := 2 ^ (e + m)) hl _ le_rfl
      fun i S q hq hi => ?_).trans (by omega)
    obtain ⟨-, -, -, -, -, hnan⟩ := hranges i S q hq hi
    rw [hnan]
    omega

/-! ### Narrow formats (R46, R47) -/

/-- R35: with `m = 0` the mantissa field is empty. -/
theorem patFields_F_of_man_zero (e pat : Nat) : (patFields e 0 pat).F = 0 :=
  Nat.mod_one _

section
variable {P : Params} (i : Inputs P)

/-- R46: a one-bit exponent field is 0 or all ones. -/
theorem isNormal_eq_false_of_exp_one (he : (readInputs i).e = 1) : (fpUnpack P i).isNormal = false := by
  by_cases herr : (fpUnpack P i).err = 0b00#2
  · have hflags := fpUnpack_flagsByFields i herr
    obtain ⟨hE, -⟩ := patFields_lt (readInputs i).e (readInputs i).m (readInputs i).pat
    rw [he] at hflags hE
    rw [Bool.eq_false_iff, ne_eq, hflags.isNormal, allOnesExp]
    omega
  · obtain ⟨-, -, -, -, herror⟩ := errNamesTheOutcome P i
    exact (herror herr).isNormal

/-- R47: both lost classes need a non-zero mantissa field. -/
theorem no_subnormal_or_nan_of_man_zero (hm : (readInputs i).m = 0) :
    (fpUnpack P i).isSubnormal = false ∧ (fpUnpack P i).isNan = false := by
  by_cases herr : (fpUnpack P i).err = 0b00#2
  · have hflags := fpUnpack_flagsByFields i herr
    rw [hm] at hflags
    simp [Bool.eq_false_iff, hflags.isSubnormal, hflags.isNan, patFields_F_of_man_zero]
  · obtain ⟨-, -, -, -, herror⟩ := errNamesTheOutcome P i
    exact ⟨(herror herr).isSubnormal, (herror herr).isNan⟩

end

/-- Settles O37: a field of one bit or of none has too few values for the classes that are lost. -/
theorem narrowFormatsLoseClasses : Obligations.NarrowFormatsLoseClasses := by
  intro P i
  obtain ⟨hraw, hrawErr⟩ := rawOutputsAreTheFields P i
  dsimp only at hraw hrawErr ⊢
  refine ⟨fun he => ?_, fun hm => ?_⟩
  · have hnormal := isNormal_eq_false_of_exp_one i he
    obtain ⟨-, -, hfinite⟩ := exactlyOneClassFlag P i
    refine ⟨by rw [he]; rfl, hnormal, fun herr => ?_, fun q hq => ?_⟩
    · obtain ⟨-, hfExp, -⟩ := hraw herr
      rw [he, pow_one] at hfExp
      omega
    · have hflag := hfinite.1 ⟨q, hq⟩
      rw [hnormal] at hflag
      simpa using hflag
  · obtain ⟨hsubnormal, hnan⟩ := no_subnormal_or_nan_of_man_zero i hm
    obtain ⟨-, hsig, -⟩ := sigAndExpMakeTheValue P i
    refine ⟨?_, hsubnormal, hnan, fun herr hfExp => ?_, fun hnormal => ?_⟩
    · by_cases herr : (fpUnpack P i).err = 0b00#2
      · obtain ⟨-, -, hfMan⟩ := hraw herr
        rw [hfMan, hm, pow_zero, Nat.mod_one]
      · obtain ⟨-, -, hfMan⟩ := hrawErr herr
        exact hfMan
    · have hflags := fpUnpack_flagsByFields i herr
      obtain ⟨-, hE, -⟩ := hraw herr
      rw [hm] at hE hflags
      exact hflags.isInf.2 ⟨hE.symm.trans hfExp, patFields_F_of_man_zero _ _⟩
    · obtain ⟨hsigEq, -⟩ := hsig hnormal
      rw [hsigEq, hm, pow_zero, Nat.mod_one]

end Sys2Proof.Machine
end

section
/-! The format family (40_format_spec.md), I: what the format check answers, what FORMAT_CHECK leaves on the ports, and
the smallest format. -/

namespace Sys2Proof.Machine

/-! ### The format check -/

/-- R51, R56, R57: what the check admits, and the constants that it then answers. -/
theorem formatCheck_eq_ok_iff {P : Params} {s e m : Int} {c : FormatConsts} :
    formatCheck P s e m = .ok c ↔
      formatValid P s e m = true ∧ c = { totalBits := (s + e + m).toNat, bias := bias e.toNat } := by
  cases hv : formatValid P s e m <;> simp [formatCheck, hv, eq_comm]

/-- Settles O10: `formatValid` is the stated condition, and `bias` reads the exponent width as a natural number. -/
theorem formatCheckAnswersTheLegalFormats : Obligations.FormatCheckAnswersTheLegalFormats := by
  intro P s e m
  refine ⟨fun h => ?_, fun h => ?_⟩
  · have he : (e - 1).toNat = e.toNat - 1 := by omega
    rw [he]
    exact formatCheck_eq_ok_iff.2 ⟨formatValid_iff.2 h, rfl⟩
  · exact formatCheck_invalid (Bool.eq_false_iff.2 (mt formatValid_iff.1 h))

/-- R57: a power of two is at least 1. -/
theorem bias_nonneg (e : Nat) : 0 ≤ bias e :=
  sub_nonneg.2 (one_le_pow₀ (by decide))

/-- Settles O11: `T` is bounded by the limits on the widths that make it up. -/
theorem validFormatBounds : Obligations.ValidFormatBounds := by
  intro P s e m c h
  obtain ⟨hv, -⟩ := formatCheck_eq_ok_iff.1 h
  obtain ⟨rfl, hl⟩ := formatValid_iff_legal.1 hv
  obtain ⟨he, -, -⟩ := Params.legal_iff.1 hl
  have hT : 2 ≤ 1 + e + m := by omega
  rw [formatCheck_valid hl] at h
  cases h
  exact ⟨rfl, hT, Params.totalBits_le_w hl, rfl, bias_nonneg e⟩

/-! ### The smallest format (R59) -/

section
variable {P : Params} {e m : Nat}

/-- R35, R60: the value of the pattern of three fields. -/
theorem decodeValue_patOf {E F : Nat} (ieee S : Bool) (hl : P.legal e m = true) (hE : E < 2 ^ e) (hF : F < 2 ^ m) :
    decodeValue (levels P ⟨ieee, 1, e, m, patOf e m S E F⟩) = .ok (decodeFields e m ieee ⟨S, E, F⟩) := by
  have hp := patOf_lt (S := S) hE hF
  have hr := readInputs_levels (Laws.FitsPorts.fits_of_legal (ieee := ieee) hl hp)
  have h := decodeValue_wellFormed (i := levels P ⟨ieee, 1, e, m, patOf e m S E F⟩)
  rw [hr] at h
  rw [h rfl hl hp, patFields_patOf hE hF]

/-- R62, R69: the two zero patterns. -/
theorem decodeValue_zeroPattern (ieee S : Bool) (hl : P.legal e m = true) :
    decodeValue (levels P ⟨ieee, 1, e, m, patOf e m S 0 0⟩) = .ok (.finite 0) := by
  have hones := allOnesExp_pos (Params.legal_iff.1 hl).1
  have hzero : dyadic (signed S (sigI m 0 0)) (exponentOf e ieee 0 - m) = 0 :=
    dyadic_eq_zero_iff.2 (signed_eq_zero_iff.2 (sigI_eq_zero_iff.2 ⟨rfl, rfl⟩))
  rw [decodeValue_patOf ieee S hl (Nat.two_pow_pos e) (Nat.two_pow_pos m), decodeFields, if_neg hones.ne, hzero]

/-- R64: the two patterns of an infinity. -/
theorem decodeValue_infPattern (ieee S : Bool) (hl : P.legal e m = true) :
    decodeValue (levels P ⟨ieee, 1, e, m, patOf e m S (allOnesExp e) 0⟩) = .ok (if S then .negInf else .posInf) := by
  rw [decodeValue_patOf ieee S hl (Laws.FitsPorts.allOnesExp_lt e) (Nat.two_pow_pos m), decodeFields, if_pos rfl,
    if_pos rfl]

end

/-- Settles O38: the four patterns are the zero and the infinity of either sign. -/
theorem smallestFormatDecodes : Obligations.SmallestFormatDecodes := by
  intro P ieee
  have hl : P.legal 1 0 = true := Params.legal_iff.2 ⟨le_rfl, P.expWMax_pos, Nat.zero_le _⟩
  refine ⟨formatCheck_valid hl, fun s e m c h => ?_, decodeValue_zeroPattern ieee false hl,
    decodeValue_infPattern ieee false hl, decodeValue_zeroPattern ieee true hl, decodeValue_infPattern ieee true hl⟩
  obtain ⟨hv, rfl⟩ := formatCheck_eq_ok_iff.1 h
  obtain ⟨rfl, he, hm, -⟩ := formatValid_iff.1 hv
  dsimp only
  omega

/-! ### The block after a format selection (R98) -/

@[simp] theorem allDriven_cfgSignBits (P : Params) : (allDriven P).cfgSignBits = 0 := rfl
@[simp] theorem allDriven_cfgExpBits (P : Params) : (allDriven P).cfgExpBits = 0 := rfl
@[simp] theorem allDriven_cfgManBits (P : Params) : (allDriven P).cfgManBits = 0 := rfl
@[simp] theorem allDriven_denormIeee (P : Params) : (allDriven P).denormIeee = false := rfl

/-- R92: bits of `pat` that do not float keep their driven level. -/
theorem mergeFloating_pat_driven (mask driven drawn : Inputs P) :
    (mergeFloating mask driven drawn).pat &&& ~~~mask.pat = driven.pat &&& ~~~mask.pat := by
  ext k hk
  cases h : mask.pat[k] <;> simp [mergeFloating, h]

namespace Block

variable {P : Params} (b : Block P) (i : Inputs P)

@[simp] theorem formatTransaction_tPd : (b.formatTransaction i).tPd = b.tPd := by simp [formatTransaction]
@[simp] theorem formatTransaction_inputs : (b.formatTransaction i).inputs = { i with pat := b.redraw.inputs.pat } := by
  simp [formatTransaction]
@[simp] theorem formatTransaction_floating :
    (b.formatTransaction i).floating = { allDriven P with pat := b.floating.pat } := by
  simp [formatTransaction]
@[simp] theorem formatTransaction_pending : (b.formatTransaction i).pending = b.pending := by simp [formatTransaction]
@[simp] theorem formatTransaction_hold : (b.formatTransaction i).hold = b.hold := by simp [formatTransaction]
@[simp] theorem formatTransaction_samples : (b.formatTransaction i).samples = b.samples := by simp [formatTransaction]

/-- R98: the configuration ports hold what the host drives there. -/
theorem readInputs_formatTransaction :
    readInputs (b.formatTransaction i).inputs =
      ⟨(readInputs i).ieee, (readInputs i).s, (readInputs i).e, (readInputs i).m, b.redraw.inputs.pat.toNat⟩ := by
  rw [formatTransaction_inputs]
  rfl

/-- R92: a format selection drives the last undriven bits exactly when no bit of `pat` floats. -/
theorem formatTransaction_everDriven_iff :
    (b.formatTransaction i).everDriven = true ↔ b.everDriven = true ∨ b.floating.pat = 0 := by
  simp [formatTransaction, driveFormat, allDriven, Inputs.mask]

/-- R92: a redraw changes only floating bits. -/
theorem redraw_pat_driven : b.redraw.inputs.pat &&& ~~~b.floating.pat = b.inputs.pat &&& ~~~b.floating.pat := by
  unfold redraw
  split
  · rfl
  · exact mergeFloating_pat_driven _ _ _

/-- R94, R95: after a selection for which the host waits, the outputs are settled once every bit has been driven. -/
theorem formatTransaction_outputs_of_waits (h : b.tPd ≤ b.hold) (hd : (b.formatTransaction i).everDriven = true) :
    (b.formatTransaction i).outputs = fpUnpack P (b.formatTransaction i).inputs := by
  have hset : (b.formatTransaction i).settled = true := by
    rw [settled, hd, formatTransaction_tPd, Bool.true_and, decide_eq_true_eq, formatTransaction, settleFor_stable]
    exact Nat.le_add_left_of_le h
  rw [formatTransaction, settleFor_inputs]
  exact settleFor_outputs_of_settled _ _ _ hset

end Block

/-- R98: a well-formed format selection completes. -/
theorem exec_formatSelection {s : State} {i : Instr} (ht : i.tag = 1) (hw : i.wf s.params = true) :
    exec i s = .next (s.withBlock (s.block.formatTransaction (inputsOf s.params i))) :=
  (exec_eq_select s ht).trans (if_pos hw)

/-- R23: the constants are a function of the three configuration ports. -/
theorem Block.format_eq {P : Params} (b : Block P) :
    b.format = formatCheck P (readInputs b.inputs).s (readInputs b.inputs).e (readInputs b.inputs).m :=
  rfl

/-- R39: the ports hold no legal format. -/
theorem formatValid_eq_false_iff {P : Params} {s e m : Nat} :
    formatValid P s e m = false ↔ ¬ (s = 1 ∧ 1 ≤ e ∧ e ≤ P.expWMax ∧ m ≤ P.manWMax) := by
  rw [← Params.legal_iff, ← formatValid_iff_legal, Bool.not_eq_true]

/-- Settles O13: the block after the selection, read port by port; its check and its outputs are functions of the
ports. -/
theorem formatCheckSelectsTheFormat : Obligations.FormatCheckSelectsTheFormat := by
  intro st s e m ieee hs he hm hwait
  have hw : (Instr.formatCheck s e m ieee).wf st.params = true := Params.cfgFits_iff.2 ⟨hs, he, hm⟩
  have hexec := exec_formatSelection rfl hw
  have hread : readInputs (inputsOf st.params (.formatCheck s e m ieee)) = ⟨ieee, s, e, m, 0⟩ :=
    readInputs_inputsOf hw
  generalize inputsOf st.params (.formatCheck s e m ieee) = i at hexec hread
  have hports := st.block.readInputs_formatTransaction i
  simp only [hread] at hports
  have hout := st.block.formatTransaction_outputs_of_waits i hwait
  refine ⟨st.block.formatTransaction i, hexec, congrArg InWord.s hports, congrArg InWord.e hports,
    congrArg InWord.m hports, congrArg InWord.ieee hports, ?_, by simp, by simp, by simp, by simp, by simp,
    by simp, by simp, by simp, by simp, st.block.formatTransaction_everDriven_iff i, hout, fun hillegal => ?_,
    fun hlegal => ?_⟩
  · rw [Block.formatTransaction_inputs]
    exact st.block.redraw_pat_driven
  · have hv := formatValid_eq_false_iff.2 hillegal
    refine ⟨fun hd => ?_, ?_⟩
    · rw [hout hd, fpUnpack_invalidFormat (by rwa [hports])]
      exact errorOutputs_shows _ _
    · rw [Block.format_eq, hports, formatCheck_invalid hv]
  · obtain ⟨rfl, hlegal⟩ := hlegal
    rw [Block.format_eq, hports, formatCheck_valid (Params.legal_iff.2 hlegal), bias]

end Sys2Proof.Machine
end

section
/-! The format family (40_format_spec.md), II: the exponent of each kind of result (R58). -/

namespace Sys2Proof.Machine

/-- R58: the exponent code of a normalized pattern, and its exponent. -/
theorem normal_exponent_bounds {e E : Nat} (ieee : Bool) (hE : E < 2 ^ e) (h0 : E ≠ 0) (hne : E ≠ allOnesExp e) :
    2 ≤ e ∧ E ≤ 2 ^ e - 2 ∧
      2 - 2 ^ (e - 1) ≤ exponentOf e ieee E ∧ exponentOf e ieee E ≤ 2 ^ (e - 1) - 1 := by
  rw [allOnesExp] at hne
  have he : 2 ≤ e := by
    by_contra hlt
    interval_cases e <;> omega
  obtain ⟨k, rfl⟩ := Nat.exists_eq_add_of_le' he
  rw [exponentOf_pos _ _ h0, bias, show k + 2 - 1 = k + 1 from rfl]
  rw [pow_succ] at hE hne ⊢
  have hcast : ((2 ^ (k + 1) : Nat) : Int) = 2 ^ (k + 1) := by push_cast; rfl
  omega

/-- R58: the exponent of a denormalized pattern. -/
theorem subnormal_exponent_eq (e : Nat) (ieee : Bool) :
    exponentOf e ieee 0 = if ieee then 2 - 2 ^ (e - 1) else 1 - 2 ^ (e - 1) := by
  rw [exponentOf_zero, bias]
  split <;> ring

/-- R58: the range of every exponent of a format of exponent width at most `n`. -/
theorem exponentOf_range {e n E : Nat} (ieee : Bool) (hen : e ≤ n) (hE : E < 2 ^ e) (hne : E ≠ allOnesExp e) :
    1 - 2 ^ (n - 1) ≤ exponentOf e ieee E ∧ exponentOf e ieee E ≤ max (2 ^ (n - 1) - 1) 1 := by
  have hlo : (1 : Int) ≤ 2 ^ (e - 1) := one_le_pow₀ (by decide)
  have hhi : (2 : Int) ^ (e - 1) ≤ 2 ^ (n - 1) := pow_le_pow_right₀ (by decide) (Nat.sub_le_sub_right hen 1)
  by_cases h0 : E = 0
  · rw [h0, subnormal_exponent_eq]
    split <;> omega
  · obtain ⟨-, -, hmin, hmax⟩ := normal_exponent_bounds ieee hE h0 hne
    omega

/-- R58: the exponent 0 of a result without one is in the range too. -/
theorem zero_exponent_range (n : Nat) : 1 - 2 ^ (n - 1) ≤ (0 : Int) ∧ (0 : Int) ≤ max (2 ^ (n - 1) - 1) 1 := by
  have h : (1 : Int) ≤ 2 ^ (n - 1) := one_le_pow₀ (by decide)
  omega

/-- Settles O32: only a normalized and a denormalized result have an exponent, that of their fields. -/
theorem exponentRanges : Obligations.ExponentRanges := by
  intro P i
  have h := fpUnpack_answers i
  dsimp only
  generalize decodeValue i = v, fpUnpack P i = o, readInputs i = x at h ⊢
  obtain ⟨hlt, -⟩ := patFields_lt x.e x.m x.pat
  cases h with
  | invalidFormat _ hshows | invalidPattern _ _ _ hshows | zero _ _ _ _ _ _ hshows | inf _ _ _ _ _ _ hshows
  | nan _ _ _ _ _ _ hshows =>
    rw [hshows.exp]
    exact ⟨by simp [hshows.isNormal], by simp [hshows.isSubnormal], zero_exponent_range _⟩
  | subnormal hf _ hl _ hE _ hshows =>
    obtain ⟨he, heP, -⟩ := Params.legal_iff.1 hl
    rw [hshows.exp, hE]
    refine ⟨by simp [hshows.isNormal], fun _ => ⟨subnormal_exponent_eq _ _, fun h1 => ?_⟩,
      exponentOf_range _ heP (Nat.two_pow_pos _) (allOnesExp_pos he).ne⟩
    rw [subnormal_exponent_eq, h1]
    rfl
  | normal hf _ hl _ hE hne hshows =>
    obtain ⟨-, heP, -⟩ := Params.legal_iff.1 hl
    rw [← hf] at hlt
    obtain ⟨he, hcode, hmin, hmax⟩ := normal_exponent_bounds x.ieee hlt hE hne
    rw [hshows.exp, hshows.fExp]
    have hdouble : 2 * 2 ^ (x.e - 1) = (2 : Int) ^ x.e := mul_pow_sub_one (by omega) 2
    exact ⟨fun _ => ⟨he, hcode, by omega, by omega, hmin, hmax⟩, by simp [hshows.isSubnormal],
      exponentOf_range _ heP hlt hne⟩

end Sys2Proof.Machine
end

section
/-! The decode family (41_decode.md), I: what the ports show for each class, and that every row for which the host waits
completes with it. -/

namespace Sys2Proof.Machine

/-! ### What the output map of each class shows (R62 to R73) -/

section
variable {P : Params} {e m : Nat} {f : Fields} (ieee : Bool) (hl : P.legal e m = true) (hElt : f.E < 2 ^ e)
  (hFlt : f.F < 2 ^ m)
include hl hElt hFlt

theorem classOutputs_shows_zero (hE : f.E = 0) (hF : f.F = 0) :
    Shows (classOutputs P e m ieee f) .zero f false 0 0 := by
  have hones : f.E ≠ allOnesExp e := hE.trans_ne (allOnesExp_pos (Params.legal_iff.1 hl).1).ne
  rw [classOutputs, if_neg hones, if_pos hE, if_pos hF]
  exact zeroOutputs_shows hl hElt hFlt

theorem classOutputs_shows_subnormal (hE : f.E = 0) (hF : f.F ≠ 0) :
    Shows (classOutputs P e m ieee f) .subnormal f f.S f.F (if ieee then 1 - bias e else -bias e) := by
  have hones : f.E ≠ allOnesExp e := hE.trans_ne (allOnesExp_pos (Params.legal_iff.1 hl).1).ne
  have h := subnormalOutputs_shows hl hElt hFlt ieee hones
  rwa [classOutputs, if_neg hones, if_pos hE, if_neg hF, ← exponentOf_zero e ieee, ← hE]

theorem classOutputs_shows_normal (hE : f.E ≠ 0) (hones : f.E ≠ allOnesExp e) :
    Shows (classOutputs P e m ieee f) .normal f f.S (2 ^ m + f.F) (f.E - bias e) := by
  have h := normalOutputs_shows hl hElt hFlt ieee hones
  rwa [classOutputs, if_neg hones, if_neg hE, ← exponentOf_pos e ieee hE]

theorem classOutputs_shows_inf (hE : f.E = allOnesExp e) (hF : f.F = 0) :
    Shows (classOutputs P e m ieee f) .inf f f.S 0 0 := by
  rw [classOutputs, if_pos hE, if_pos hF]
  exact infOutputs_shows hl hElt hFlt

theorem classOutputs_shows_nan (hE : f.E = allOnesExp e) (hF : f.F ≠ 0) :
    Shows (classOutputs P e m ieee f) .nan f false 0 0 := by
  rw [classOutputs, if_pos hE, if_neg hF]
  exact nanOutputs_shows hl hElt hFlt

end

/-! ### The class rows -/

/-- R35: a pattern as the sum of its fields, each at its place. -/
theorem patOf_eq_sum (e m : Nat) (S : Bool) (E F : Nat) :
    patOf e m S E F = S.toNat * 2 ^ (e + m) + E * 2 ^ m + F := by
  rw [patOf, Nat.add_mul, Nat.mul_assoc, ← pow_add]

/-- R95, R99: a well-formed decode row for which the host waits completes with whatever holds of the block's
function. -/
theorem Completes.of_fpUnpack {s : State} {i : Instr} {shown : Outputs s.params → Prop} (hw : i.wf s.params = true)
    (ht : i.tag ≠ 1) (hwait : HostWaits s) (h : shown (fpUnpack s.params (inputsOf s.params i))) :
    Completes i s i.inWord shown := by
  obtain ⟨inp, out, hexec, hread, rfl⟩ := completes_decodeRow hw ht hwait
  exact ⟨inp, _, hexec, hread, h⟩

/-- R41, R95: the class row of a pattern completes with the output map of the pattern's class. -/
theorem completes_classRow {s : State} {i : Instr} {e m E F pat : Nat} {ieee S : Bool}
    {shown : Outputs s.params → Prop} (hrow : classRow e m ieee S E F = i)
    (hpat : S.toNat * 2 ^ (e + m) + E * 2 ^ m + F = pat) (hl : s.params.legal e m = true) (hE : E < 2 ^ e)
    (hF : F < 2 ^ m) (hwait : HostWaits s) (h : shown (classOutputs s.params e m ieee ⟨S, E, F⟩)) :
    Completes i s ⟨ieee, 1, e, m, pat⟩ shown := by
  obtain ⟨hw, ht, hx⟩ := classRow_isSpelled (P := s.params) ieee S hl hE hF
  rw [hrow] at hw ht hx
  rw [← hpat, ← patOf_eq_sum, ← hx]
  refine Completes.of_fpUnpack hw (ht.trans_ne Nat.zero_ne_one) hwait ?_
  rwa [inputsOf, hx, fpUnpack_patOf ieee S hl hE hF]

/-- Settles O14: ZERO is the class row of two zero fields. -/
theorem zeroRowShowsZero : Obligations.ZeroRowShowsZero := by
  intro s e m ieee S he heP hmP hwait
  have hl : s.params.legal e m = true := Params.legal_iff.2 ⟨he, heP, hmP⟩
  have hE := Nat.two_pow_pos e
  have hF := Nat.two_pow_pos m
  exact completes_classRow (by simp [classRow]) (by simp) hl hE hF hwait
    (classOutputs_shows_zero ieee hl hE hF rfl rfl)

/-- Settles O15: SUBNORMAL_REF is the class row of a zero exponent field in reference mode. -/
theorem subnormalRefRowShowsMinusBias : Obligations.SubnormalRefRowShowsMinusBias := by
  intro s e m S F he heP hmP hF0 hF hwait
  have hl : s.params.legal e m = true := Params.legal_iff.2 ⟨he, heP, hmP⟩
  have hE := Nat.two_pow_pos e
  exact completes_classRow (by simp [classRow, hF0]) (by simp) hl hE hF hwait
    (classOutputs_shows_subnormal false hl hE hF rfl hF0)

/-- Settles O16: SUBNORMAL_IEEE is the class row of a zero exponent field in IEEE mode. -/
theorem subnormalIeeeRowShowsOneMinusBias : Obligations.SubnormalIeeeRowShowsOneMinusBias := by
  intro s e m S F he heP hmP hF0 hF hwait
  have hl : s.params.legal e m = true := Params.legal_iff.2 ⟨he, heP, hmP⟩
  have hE := Nat.two_pow_pos e
  exact completes_classRow (by simp [classRow, hF0]) (by simp) hl hE hF hwait
    (classOutputs_shows_subnormal true hl hE hF rfl hF0)

/-- Settles O17: NORMAL is the class row of an exponent field that is neither 0 nor all ones. -/
theorem normalRowShowsTheValue : Obligations.NormalRowShowsTheValue := by
  intro s e m ieee S E F he heP hmP hE1 hEmax hF hwait
  have hl : s.params.legal e m = true := Params.legal_iff.2 ⟨he, heP, hmP⟩
  have hE0 : E ≠ 0 := by omega
  have hones : E ≠ allOnesExp e := hEmax.ne
  have hE : E < 2 ^ e := by omega
  exact completes_classRow (by simp [classRow, hE0, hones]) rfl hl hE hF hwait
    (classOutputs_shows_normal ieee hl hE hF hE0 hones)

/-- Settles O18: INF_POS and INF_NEG are the class rows of an all-ones exponent field and a zero mantissa field. -/
theorem infinityRowsShowTheirSign : Obligations.InfinityRowsShowTheirSign := by
  intro s e m ieee he heP hmP hwait
  have hl : s.params.legal e m = true := Params.legal_iff.2 ⟨he, heP, hmP⟩
  have hE := Laws.FitsPorts.allOnesExp_lt e
  have hF := Nat.two_pow_pos m
  have hones := (allOnesExp_pos he).ne'
  exact ⟨completes_classRow (by simp [classRow, hones]) (by simp [allOnesExp]) hl hE hF hwait
      (classOutputs_shows_inf ieee hl hE hF rfl rfl),
    completes_classRow (by simp [classRow, hones]) (by simp [allOnesExp]) hl hE hF hwait
      (classOutputs_shows_inf ieee hl hE hF rfl rfl)⟩

/-- Settles O19: NAN is the class row of an all-ones exponent field and a mantissa field that is not 0. -/
theorem nanRowDropsTheSign : Obligations.NanRowDropsTheSign := by
  intro s e m ieee S F he heP hmP hF0 hF hwait
  have hl : s.params.legal e m = true := Params.legal_iff.2 ⟨he, heP, hmP⟩
  have hE := Laws.FitsPorts.allOnesExp_lt e
  have hrow : classRow e m ieee S (allOnesExp e) F = .nan e m ieee S F := by
    simp [classRow, (allOnesExp_pos he).ne', hF0]
  exact completes_classRow hrow rfl hl hE hF hwait
    (classOutputs_shows_nan ieee hl hE hF rfl hF0)

/-! ### Every row -/

/-- Settles O24: a row is known by its input set, and the input set of every well-formed row fits the ports. -/
theorem classRowsAreDecode : Obligations.ClassRowsAreDecode := by
  intro s i hw ht
  obtain ⟨hs, he, hm, hp⟩ := inWord_fits hw
  have hdecode : (Instr.decode i.inWord.s i.inWord.e i.inWord.m i.inWord.ieee i.inWord.pat).wf s.params = true :=
    Bool.and_eq_true_iff.2 ⟨Params.cfgFits_iff.2 ⟨hs, he, hm⟩, Params.patFits_iff.2 hp⟩
  exact exec_eq_of_inWord_eq s (by simp [ht]) (by simp [Instr.tag]) (hw.trans hdecode.symm) rfl

/-- R35: the three fields as the pseudocode of R63 cuts them. -/
theorem patFields_eq (e m pat : Nat) :
    patFields e m pat = ⟨pat.testBit (e + m), pat / 2 ^ m % 2 ^ e, pat % 2 ^ m⟩ := by
  rw [← patFields_S_eq_testBit, ← bits_zero_right pat m]
  rfl

/-- Settles O22: the ports show the error of the first check that fails, or the class of the pattern's fields. -/
theorem decodeShowsEveryCase : Obligations.DecodeShowsEveryCase := by
  intro st s e m ieee pat hs he hm hp hwait
  have hw : (Instr.decode s e m ieee pat).wf st.params = true :=
    Bool.and_eq_true_iff.2 ⟨Params.cfgFits_iff.2 ⟨hs, he, hm⟩, Params.patFits_iff.2 hp⟩
  have hread : readInputs (inputsOf st.params (.decode s e m ieee pat)) = ⟨ieee, s, e, m, pat⟩ := readInputs_inputsOf hw
  refine Completes.of_fpUnpack hw (by simp [Instr.tag]) hwait ?_
  generalize inputsOf st.params (.decode s e m ieee pat) = i at hread
  have hvalid := fpUnpack_invalidFormat (i := i)
  have hpattern := fpUnpack_invalidPattern (i := i)
  have hclass := fpUnpack_wellFormed (i := i)
  rw [hread] at hvalid hpattern hclass
  refine ⟨fun hillegal => ?_, ?_, ?_⟩
  · rw [hvalid (formatValid_eq_false_iff.2 hillegal)]
    exact errorOutputs_shows _ _
  · rintro ⟨rfl, hl⟩ hpat
    rw [hpattern rfl (Params.legal_iff.2 hl) hpat]
    exact errorOutputs_shows _ _
  · rintro ⟨rfl, hl⟩ hpat
    rw [← Params.legal_iff] at hl
    obtain ⟨hElt, hFlt⟩ := patFields_lt e m pat
    rw [hclass rfl hl hpat]
    dsimp only
    rw [patFields_eq] at hElt hFlt ⊢
    refine ⟨classOutputs_shows_zero ieee hl hElt hFlt, ?_, ?_, classOutputs_shows_normal ieee hl hElt hFlt,
      classOutputs_shows_inf ieee hl hElt hFlt, classOutputs_shows_nan ieee hl hElt hFlt⟩
    · rintro hE hF rfl
      exact classOutputs_shows_subnormal false hl hElt hFlt hE hF
    · rintro hE hF rfl
      exact classOutputs_shows_subnormal true hl hElt hFlt hE hF

/-- R94, R95: after a selection for which the host waits, the block has settled once every bit has been driven. -/
theorem Block.formatTransaction_settled_of_waits {P : Params} (b : Block P) (i : Inputs P) (h : b.tPd ≤ b.hold)
    (hd : (b.formatTransaction i).everDriven = true) : (b.formatTransaction i).settled = true := by
  rw [settled, hd, formatTransaction_tPd, Bool.true_and, decide_eq_true_eq, formatTransaction, settleFor_stable]
  exact Nat.le_add_left_of_le h

/-- R92: after a selection nothing floats exactly when no bit of `pat` does. -/
theorem Block.formatTransaction_floating_eq_allDriven_iff {P : Params} (b : Block P) (i : Inputs P) :
    (b.formatTransaction i).floating = allDriven P ↔ b.floating.pat = 0 := by
  simp [allDriven, Inputs.mask]

/-- Settles O45: a format selection and a decode row complete, and their outputs are settled once every bit is
driven. -/
theorem everyTransactionCompletes : Obligations.EveryTransactionCompletes := by
  intro s i hw hwait
  by_cases ht : i.tag = 1
  · refine ⟨_, exec_formatSelection ht hw, ?_, fun hd => ?_⟩
    · rw [Block.formatTransaction_everDriven_iff, Block.formatTransaction_floating_eq_allDriven_iff]
      simp [ht]
    · have hout := s.block.formatTransaction_outputs_of_waits (inputsOf s.params i) hwait hd
      exact ⟨Block.formatTransaction_settled_of_waits _ _ hwait hd, hout, hout ▸ fpUnpack_err_ne_reserved _⟩
  · obtain ⟨hexec, hout, -⟩ := exec_decodeRow_of_waits hw ht hwait
    refine ⟨_, hexec, by simp [ht], fun _ => ⟨Block.afterDecode_settled_of_waits _ _ hwait, ?_, ?_⟩⟩
    · rw [hout, Block.afterDecode_inputs]
    · exact hout ▸ fpUnpack_err_ne_reserved _

end Sys2Proof.Machine
end

section
/-! The decode family (41_decode.md), II: the decoded value of each class, the totality of Decode, reading it back from
the ports, and what the denormal mode changes. -/

namespace Sys2Proof.Machine

/-! ### The value of each class (R62 to R69) -/

section
variable {e : Nat} (m : Nat) (ieee : Bool) {f : Fields}

theorem decodeFields_zero (he : 1 ≤ e) (hE : f.E = 0) (hF : f.F = 0) : decodeFields e m ieee f = .finite 0 := by
  have hones : f.E ≠ allOnesExp e := hE.trans_ne (allOnesExp_pos he).ne
  rw [decodeFields, if_neg hones, dyadic_eq_zero_iff.2 (signed_eq_zero_iff.2 (sigI_eq_zero_iff.2 ⟨hE, hF⟩))]

theorem decodeFields_inf (hE : f.E = allOnesExp e) (hF : f.F = 0) :
    decodeFields e m ieee f = if f.S then .negInf else .posInf := by
  rw [decodeFields, if_pos hE, if_pos hF]

theorem decodeFields_nan (hE : f.E = allOnesExp e) (hF : f.F ≠ 0) : decodeFields e m ieee f = .nan := by
  rw [decodeFields, if_pos hE, if_neg hF]

theorem decodeFields_finite (hones : f.E ≠ allOnesExp e) :
    decodeFields e m ieee f =
      .finite ((-1) ^ f.S.toNat * (sigI m f.E f.F : ℚ) * 2 ^ (exponentOf e ieee f.E - m)) := by
  rw [decodeFields, if_neg hones, dyadic_eq, signed_cast]

theorem decodeFields_subnormal (he : 1 ≤ e) (hE : f.E = 0) :
    decodeFields e m ieee f =
      .finite ((-1) ^ f.S.toNat * (f.F : ℚ) * 2 ^ ((if ieee then 1 - bias e else -bias e) - m)) := by
  have hones : f.E ≠ allOnesExp e := hE.trans_ne (allOnesExp_pos he).ne
  rw [decodeFields_finite m ieee hones, hE, sigI_zero, exponentOf_zero]

/-- R66: the significand `1 + F / 2^m` is `sigI / 2^m`. -/
theorem decodeFields_normal (hE : f.E ≠ 0) (hones : f.E ≠ allOnesExp e) :
    decodeFields e m ieee f =
      .finite ((-1) ^ f.S.toNat * (1 + (f.F : ℚ) / 2 ^ m) * 2 ^ ((f.E : Int) - bias e)) := by
  have hsig : ((sigI m f.E f.F : ℕ) : ℚ) = (1 + (f.F : ℚ) / 2 ^ m) * 2 ^ m := by
    rw [sigI_pos m f.F hE, add_mul, div_mul_cancel₀ _ (by positivity)]
    push_cast
    ring
  have hexp : (2 : ℚ) ^ ((f.E : Int) - bias e) = 2 ^ m * 2 ^ ((f.E : Int) - bias e - m) := by
    rw [← zpow_natCast, ← zpow_add₀ two_ne_zero]
    congr 1
    ring
  rw [decodeFields_finite m ieee hones, exponentOf_pos e ieee hE, hsig, hexp]
  ring_nf

end

/-- R35, R74: what Decode and the ports answer on the pattern of three fields. -/
theorem answers_patOf {P : Params} {i : Inputs P} {e m E F : Nat} {ieee S : Bool} (hl : P.legal e m = true)
    (hE : E < 2 ^ e) (hF : F < 2 ^ m) (hi : readInputs i = ⟨ieee, 1, e, m, patOf e m S E F⟩) :
    decodeValue i = .ok (decodeFields e m ieee ⟨S, E, F⟩) ∧ fpUnpack P i = classOutputs P e m ieee ⟨S, E, F⟩ := by
  rw [← levels_readInputs i, hi]
  exact ⟨decodeValue_patOf ieee S hl hE hF, fpUnpack_patOf ieee S hl hE hF⟩

/-- Settles O25: the value and the output map of each class. -/
theorem everyClassHasItsValueAndPorts : Obligations.EveryClassHasItsValueAndPorts := by
  intro P i e m ieee S E F he heP hmP hElt hFlt hi
  have hl : P.legal e m = true := Params.legal_iff.2 ⟨he, heP, hmP⟩
  rw [← patOf_eq_sum] at hi
  obtain ⟨hvalue, hports⟩ := answers_patOf hl hElt hFlt hi
  dsimp only
  rw [hvalue, hports]
  refine ⟨fun hE hF => ⟨?_, classOutputs_shows_zero ieee hl hElt hFlt hE hF⟩,
    fun hE hF => ⟨?_, classOutputs_shows_inf ieee hl hElt hFlt hE hF⟩,
    fun hE hF => ⟨?_, classOutputs_shows_nan ieee hl hElt hFlt hE hF⟩,
    fun hE hones => ⟨?_, classOutputs_shows_normal ieee hl hElt hFlt hE hones⟩, ?_, ?_⟩
  · rw [decodeFields_zero m ieee he hE hF]
  · rw [decodeFields_inf m ieee hE hF]
  · rw [decodeFields_nan m ieee hE hF]
  · rw [decodeFields_normal m ieee hE hones, bias]
  · rintro hE hF rfl
    refine ⟨?_, classOutputs_shows_subnormal false hl hElt hFlt hE hF⟩
    rw [decodeFields_subnormal m false he hE, bias]
    rfl
  · rintro hE hF rfl
    refine ⟨?_, classOutputs_shows_subnormal true hl hElt hFlt hE hF⟩
    rw [decodeFields_subnormal m true he hE, bias]
    rfl

/-! ### Totality, and reading the value back -/

/-- Settles O26: the two checks in their order, and a value where both pass. -/
theorem decodeIsTotalWithTwoErrors : Obligations.DecodeIsTotalWithTwoErrors := by
  intro P i
  have hinvalid := decodeValue_invalidFormat (i := i)
  have hpattern := decodeValue_invalidPattern (i := i)
  have hvalue := decodeValue_wellFormed (i := i)
  dsimp only
  by_cases hlegal : (readInputs i).s = 1 ∧ 1 ≤ (readInputs i).e ∧ (readInputs i).e ≤ P.expWMax ∧
      (readInputs i).m ≤ P.manWMax
  · obtain ⟨hs, hl⟩ := hlegal
    rcases Nat.lt_or_ge (readInputs i).pat (2 ^ (1 + (readInputs i).e + (readInputs i).m)) with hp | hp
    · simp [hvalue hs (Params.legal_iff.2 hl) hp, hs, hl, hp]
    · simp [hpattern hs (Params.legal_iff.2 hl) hp, hs, hl, hp]
  · simp [hinvalid (formatValid_eq_false_iff.2 hlegal), hlegal]

/-- Settles O27: each case shows its own code or flag, and the finite ones their significand and exponent. -/
theorem portsGiveBackTheDecodedValue : Obligations.PortsGiveBackTheDecodedValue := by
  intro P i
  have h := fpUnpack_answers i
  generalize decodeValue i = v, fpUnpack P i = o at h ⊢
  cases h with
  | invalidFormat _ hshows | invalidPattern _ _ _ hshows => simp [readBack, hshows.err]
  | zero _ _ _ _ _ _ hshows | nan _ _ _ _ _ _ hshows =>
    simp [readBack, hshows.err, hshows.isZero, hshows.isInf, hshows.isNan]
  | inf _ _ _ _ _ _ hshows => simp [readBack, hshows.err, hshows.isZero, hshows.isInf, hshows.sign]
  | subnormal _ _ _ _ _ _ hshows | normal _ _ _ _ _ _ hshows =>
    simp [readBack, hshows.err, hshows.isZero, hshows.isInf, hshows.isNan, hshows.sign, hshows.sig, hshows.exp]

/-! ### The denormal mode (R76) -/

section
variable {e : Nat} (m : Nat) {f : Fields}

/-- R68: the mode enters the exponent of an all-zero exponent field only. -/
theorem exponentOf_mode {E : Nat} (hE : E ≠ 0) : exponentOf e true E = exponentOf e false E := by
  rw [exponentOf_pos e true hE, exponentOf_pos e false hE]

theorem classOutputs_isSubnormal (ieee : Bool) (P : Params) (he : 1 ≤ e) :
    (classOutputs P e m ieee f).isSubnormal = decide (f.E = 0 ∧ f.F ≠ 0) := by
  have hones := (allOnesExp_pos he).ne'
  unfold classOutputs
  split_ifs with hE hF hE0 hF <;>
    simp [*, infOutputs, nanOutputs, zeroOutputs, subnormalOutputs, normalOutputs, rawOutputs, zeros]

/-- R76: outside the denormalized patterns neither the value nor the ports depend on the mode. -/
theorem mode_irrelevant (P : Params) (he : 1 ≤ e) (h : ¬ (f.E = 0 ∧ f.F ≠ 0)) :
    classOutputs P e m true f = classOutputs P e m false f ∧ decodeFields e m true f = decodeFields e m false f := by
  by_cases hE : f.E = 0
  · have hF : f.F = 0 := not_not.1 fun hF => h ⟨hE, hF⟩
    rw [decodeFields_zero m true he hE hF, decodeFields_zero m false he hE hF]
    simp [classOutputs, hE, hF]
  · simp only [classOutputs, decodeFields, exponentOf_mode hE, and_self]

/-- R76: in IEEE mode a denormalized value is twice what it is in reference mode. -/
theorem decodeFields_subnormal_doubles (he : 1 ≤ e) (hE : f.E = 0) :
    ∃ q, decodeFields e m false f = .finite q ∧ decodeFields e m true f = .finite (2 * q) := by
  refine ⟨_, decodeFields_subnormal m false he hE, ?_⟩
  have hexp : (2 : ℚ) ^ (1 - bias e - (m : Int)) = 2 * 2 ^ (-bias e - (m : Int)) := by
    rw [← zpow_one_add₀ two_ne_zero]
    congr 1
    ring
  rw [decodeFields_subnormal m true he hE, if_pos rfl, hexp, if_neg Bool.false_ne_true]
  ring_nf

/-- R76: the two modes' ports for a denormalized pattern differ in `exp` alone. -/
theorem classOutputs_subnormal_mode (P : Params) (he : 1 ≤ e) (hE : f.E = 0) (hF : f.F ≠ 0) :
    { classOutputs P e m true f with exp := (classOutputs P e m false f).exp } = classOutputs P e m false f := by
  simp [classOutputs, hE, hF, (allOnesExp_pos he).ne, subnormalOutputs]

end

/-- R60, R76: the mode is not read on an error, and enters a well-formed pattern's result by its exponent alone. -/
theorem mode_cases {P : Params} (i : Inputs P) :
    (∃ err, ∀ ieee, decodeValue { i with denormIeee := ieee } = .error err ∧
      fpUnpack P { i with denormIeee := ieee } = errorOutputs P err) ∨
    (∃ e m f, P.legal e m = true ∧ f.E < 2 ^ e ∧ f.F < 2 ^ m ∧ ∀ ieee,
      decodeValue { i with denormIeee := ieee } = .ok (decodeFields e m ieee f) ∧
      fpUnpack P { i with denormIeee := ieee } = classOutputs P e m ieee f) := by
  cases hv : formatValid P (readInputs i).s (readInputs i).e (readInputs i).m with
  | false => exact .inl ⟨_, fun _ => ⟨decodeValue_invalidFormat hv, fpUnpack_invalidFormat hv⟩⟩
  | true =>
    obtain ⟨hs, hl⟩ := formatValid_iff_legal.1 hv
    rcases Nat.lt_or_ge (readInputs i).pat (2 ^ (1 + (readInputs i).e + (readInputs i).m)) with hp | hp
    · obtain ⟨hElt, hFlt⟩ := patFields_lt (readInputs i).e (readInputs i).m (readInputs i).pat
      exact .inr ⟨_, _, _, hl, hElt, hFlt, fun _ => ⟨decodeValue_wellFormed hs hl hp, fpUnpack_wellFormed hs hl hp⟩⟩
    · exact .inl ⟨_, fun _ => ⟨decodeValue_invalidPattern hs hl hp, fpUnpack_invalidPattern hs hl hp⟩⟩

/-- Settles O39: an error, a pattern that is not denormalized, and a denormalized one. -/
theorem modeChangesOnlySubnormals : Obligations.ModeChangesOnlySubnormals := by
  intro P i
  dsimp only
  rcases mode_cases i with ⟨err, h⟩ | ⟨e, m, f, hl, hElt, hFlt, h⟩
  · obtain ⟨hvalueRef, hportsRef⟩ := h false
    obtain ⟨hvalueAlt, hportsAlt⟩ := h true
    rw [hvalueRef, hportsRef, hvalueAlt, hportsAlt, (errorOutputs_shows P err).isSubnormal]
    simp
  · obtain ⟨hvalueRef, hportsRef⟩ := h false
    obtain ⟨hvalueAlt, hportsAlt⟩ := h true
    obtain ⟨he, -⟩ := Params.legal_iff.1 hl
    rw [hvalueRef, hportsRef, hvalueAlt, hportsAlt, classOutputs_isSubnormal m false P he]
    by_cases hsub : f.E = 0 ∧ f.F ≠ 0
    · obtain ⟨hE, hF⟩ := hsub
      obtain ⟨q, href, halt⟩ := decodeFields_subnormal_doubles m he hE
      have hexp (ieee : Bool) := (classOutputs_shows_subnormal ieee hl hElt hFlt hE hF).exp
      refine ⟨by simp [hE, hF], fun _ => ⟨⟨q, congrArg Except.ok href, congrArg Except.ok halt⟩, ?_,
        classOutputs_subnormal_mode m P he hE hF⟩⟩
      rw [hexp true, hexp false, if_pos rfl, if_neg Bool.false_ne_true]
      ring
    · obtain ⟨hports, hvalue⟩ := mode_irrelevant m P he hsub
      exact ⟨fun _ => ⟨hports, congrArg Except.ok hvalue⟩, fun h => absurd (of_decide_eq_true h) hsub⟩

end Sys2Proof.Machine
end

section
/-! The decode family (41_decode.md), III: finite values grow with the pattern and negate with the sign bit (R77), and
the largest and smallest magnitudes of a format (R79). -/

namespace Sys2Proof.Machine

/-! ### The magnitude of a pattern -/

/-- R66 to R69: the magnitude of a finite value by the bits `p` below its sign. `decodeValue_eq_magnitude` ties it to
the block. -/
def magnitude (e m : Nat) (ieee : Bool) (p : Nat) : ℚ :=
  (sigI m (p / 2 ^ m) (p % 2 ^ m) : ℚ) * 2 ^ (exponentOf e ieee (p / 2 ^ m) - m)

/-- The exponent field as an exponent above `-bias`, with the mode's choice for an all-zero field.
`exponentOf_eq_biasedExp` ties it to the model's exponent. -/
def biasedExp (ieee : Bool) (E : Nat) : Nat :=
  if E = 0 ∧ ieee = true then 1 else E

/-- The magnitude as a number of units `2^(-bias - m)`. `magnitude_eq_units` ties it to `magnitude`. -/
def magnitudeUnits (m : Nat) (ieee : Bool) (p : Nat) : Nat :=
  sigI m (p / 2 ^ m) (p % 2 ^ m) * 2 ^ biasedExp ieee (p / 2 ^ m)

theorem exponentOf_eq_biasedExp (e : Nat) (ieee : Bool) (E : Nat) :
    exponentOf e ieee E = biasedExp ieee E - bias e := by
  unfold exponentOf biasedExp
  split <;> rfl

theorem magnitude_eq_units (e m : Nat) (ieee : Bool) (p : Nat) :
    magnitude e m ieee p = magnitudeUnits m ieee p * (2 : ℚ) ^ (-bias e - (m : Int)) := by
  have hexp : exponentOf e ieee (p / 2 ^ m) - m = (biasedExp ieee (p / 2 ^ m) : Int) + (-bias e - (m : Int)) := by
    rw [exponentOf_eq_biasedExp]
    ring
  rw [magnitude, magnitudeUnits, hexp, zpow_add₀ two_ne_zero, zpow_natCast]
  push_cast
  ring

section
variable {m E F : Nat} (hF : F < 2 ^ m)
include hF

theorem mul_two_pow_add_div : (E * 2 ^ m + F) / 2 ^ m = E := by
  rw [Nat.add_comm, Nat.add_mul_div_right _ _ (Nat.two_pow_pos m), Nat.div_eq_of_lt hF, Nat.zero_add]

theorem mul_two_pow_add_mod : (E * 2 ^ m + F) % 2 ^ m = F := by
  rw [Nat.add_comm, Nat.add_mul_mod_self_right, Nat.mod_eq_of_lt hF]

theorem magnitude_of_fields (e : Nat) (ieee : Bool) :
    magnitude e m ieee (E * 2 ^ m + F) = (sigI m E F : ℚ) * 2 ^ (exponentOf e ieee E - m) := by
  rw [magnitude, mul_two_pow_add_div hF, mul_two_pow_add_mod hF]

theorem magnitudeUnits_of_fields (ieee : Bool) :
    magnitudeUnits m ieee (E * 2 ^ m + F) = sigI m E F * 2 ^ biasedExp ieee E := by
  rw [magnitudeUnits, mul_two_pow_add_div hF, mul_two_pow_add_mod hF]

end

/-! ### Magnitudes grow with the pattern (R77) -/

/-- R77: the step to the next mantissa field. -/
theorem sigI_lt_succ (m E F : Nat) : sigI m E F < sigI m E (F + 1) := by
  unfold sigI
  split <;> omega

/-- R77: the step from the largest mantissa field to the next exponent field. -/
theorem sigI_mul_biasedExp_lt_next (m : Nat) (ieee : Bool) {E F : Nat} (hF : F < 2 ^ m) :
    sigI m E F * 2 ^ biasedExp ieee E < sigI m (E + 1) 0 * 2 ^ biasedExp ieee (E + 1) := by
  have hnext : sigI m (E + 1) 0 * 2 ^ biasedExp ieee (E + 1) = 2 ^ (m + 1) * 2 ^ E := by
    rw [sigI_pos m 0 (Nat.succ_ne_zero E), biasedExp, if_neg (by simp), Nat.add_zero, ← pow_add, ← pow_add]
    congr 1
    ring
  rw [hnext]
  by_cases hE : E = 0
  · subst hE
    have hmode : 2 ^ biasedExp ieee 0 ≤ 2 := by cases ieee <;> simp [biasedExp]
    rw [sigI_zero, pow_zero, Nat.mul_one, pow_succ]
    exact (Nat.mul_le_mul_left F hmode).trans_lt (Nat.mul_lt_mul_of_pos_right hF two_pos)
  · rw [biasedExp, if_neg (by simp [hE])]
    exact Nat.mul_lt_mul_of_pos_right (sigI_lt hF) (Nat.two_pow_pos E)

theorem magnitudeUnits_strictMono (m : Nat) (ieee : Bool) : StrictMono (magnitudeUnits m ieee) := by
  refine strictMono_nat_of_lt_succ fun p => ?_
  have hF : p % 2 ^ m < 2 ^ m := Nat.mod_lt _ (Nat.two_pow_pos m)
  rw [← Nat.div_add_mod' p (2 ^ m)]
  generalize p / 2 ^ m = E, p % 2 ^ m = F at hF
  rw [magnitudeUnits_of_fields hF]
  by_cases hnext : F + 1 < 2 ^ m
  · rw [Nat.add_assoc, magnitudeUnits_of_fields hnext]
    exact Nat.mul_lt_mul_of_pos_right (sigI_lt_succ m E F) (Nat.two_pow_pos _)
  · have hcarry : E * 2 ^ m + F + 1 = (E + 1) * 2 ^ m + 0 := by
      rw [Nat.add_mul]
      omega
    rw [hcarry, magnitudeUnits_of_fields (Nat.two_pow_pos m)]
    exact sigI_mul_biasedExp_lt_next m ieee hF

theorem magnitude_strictMono (e m : Nat) (ieee : Bool) : StrictMono (magnitude e m ieee) := by
  intro p q hpq
  have hunit : (0 : ℚ) < 2 ^ (-bias e - (m : Int)) := zpow_pos two_pos _
  rw [magnitude_eq_units, magnitude_eq_units]
  exact mul_lt_mul_of_pos_right (Nat.cast_lt.2 (magnitudeUnits_strictMono m ieee hpq)) hunit

theorem magnitude_zero (e m : Nat) (ieee : Bool) : magnitude e m ieee 0 = 0 := by
  simp [magnitude, sigI]

theorem magnitude_nonneg (e m : Nat) (ieee : Bool) (p : Nat) : 0 ≤ magnitude e m ieee p :=
  (magnitude_zero e m ieee).symm.trans_le ((magnitude_strictMono e m ieee).monotone (Nat.zero_le p))

theorem abs_signed_magnitude (e m : Nat) (ieee S : Bool) (p : Nat) :
    |(-1) ^ S.toNat * magnitude e m ieee p| = magnitude e m ieee p := by
  rw [abs_mul, abs_neg_one_pow, one_mul, abs_of_nonneg (magnitude_nonneg e m ieee p)]

/-! ### The finite patterns -/

/-- R77: the low bits of a finite pattern fit below its sign. -/
theorem lt_of_finite {e m p : Nat} (hp : p < (2 ^ e - 1) * 2 ^ m) : p < 2 ^ (e + m) := by
  rw [pow_add]
  exact hp.trans_le (Nat.mul_le_mul_right _ (Nat.sub_le _ _))

section
variable {P : Params} {e m p pat : Nat} {ieee : Bool} {i : Inputs P} {q : ℚ}

/-- R66 to R69: the value of a finite pattern, of either sign. -/
theorem decodeValue_eq_magnitude (S : Bool) (hl : P.legal e m = true) (hp : p < (2 ^ e - 1) * 2 ^ m)
    (hi : readInputs i = ⟨ieee, 1, e, m, S.toNat * 2 ^ (e + m) + p⟩) :
    decodeValue i = .ok (.finite ((-1) ^ S.toNat * magnitude e m ieee p)) := by
  have hlt := lt_of_finite hp
  have hones : p / 2 ^ m ≠ allOnesExp e := ((Nat.div_lt_iff_lt_mul (Nat.two_pow_pos m)).2 hp).ne
  have h := decodeValue_wellFormed (i := i)
  rw [hi] at h
  rw [h rfl hl (sign_add_lt S hlt), patFields_sign_add S hlt, decodeFields_finite m ieee hones, magnitude, mul_assoc]

/-- R66 to R69: only a finite pattern decodes to a finite value. -/
theorem exists_magnitude_of_decodeValue (hi : readInputs i = ⟨ieee, 1, e, m, pat⟩)
    (h : decodeValue i = .ok (.finite q)) :
    ∃ (S : Bool) (p : Nat), p < (2 ^ e - 1) * 2 ^ m ∧ pat = S.toNat * 2 ^ (e + m) + p ∧
      q = (-1) ^ S.toNat * magnitude e m ieee p := by
  obtain ⟨-, -, htotal⟩ := decodeIsTotalWithTwoErrors P i
  obtain ⟨⟨-, hl⟩, hpat⟩ := htotal.1 ⟨_, h⟩
  rw [← Params.legal_iff] at hl
  have hv := decodeValue_wellFormed (i := i)
  rw [hi] at hl hpat hv
  rw [hv rfl hl hpat] at h
  obtain ⟨hElt, hFlt⟩ := patFields_lt e m pat
  have hsum := patOf_patFields hpat
  rw [patOf_eq_sum, Nat.add_assoc] at hsum
  by_cases hE : (patFields e m pat).E = allOnesExp e
  · by_cases hF : (patFields e m pat).F = 0
    · rw [decodeFields_inf m ieee hE hF] at h
      split at h <;> cases h
    · rw [decodeFields_nan m ieee hE hF] at h
      cases h
  · rw [decodeFields_finite m ieee hE] at h
    cases h
    refine ⟨_, _, ?_, hsum.symm, ?_⟩
    · have hsucc : (patFields e m pat).E + 1 ≤ 2 ^ e - 1 := by
        rw [allOnesExp] at hE
        omega
      exact (Nat.add_lt_add_left hFlt _).trans_le (Nat.succ_mul _ _ ▸ Nat.mul_le_mul_right _ hsucc)
    · rw [magnitude_of_fields hFlt, mul_assoc]

end

/-- Settles O40: the magnitude grows with the low bits, and the sign bit is the sign of the value. -/
theorem finiteResultsIncreaseAndNegate : Obligations.FiniteResultsIncreaseAndNegate := by
  intro P i j e m p q ieee he heP hmP hi hp
  have hl : P.legal e m = true := Params.legal_iff.2 ⟨he, heP, hmP⟩
  have hvalue := decodeValue_eq_magnitude (i := i) (ieee := ieee) false hl hp (by simpa using hi)
  refine ⟨fun hq hj hpq => ?_, fun hj => ?_⟩
  · have hvalue' := decodeValue_eq_magnitude (i := j) (ieee := ieee) false hl hq (by simpa using hj)
    exact ⟨_, _, hvalue, hvalue', by simpa using magnitude_strictMono e m ieee hpq⟩
  · have hvalue' := decodeValue_eq_magnitude (i := j) (ieee := ieee) true hl hp (by simpa using hj)
    exact ⟨_, hvalue, by simpa using hvalue'⟩

/-! ### The largest and the smallest magnitudes (R79) -/

/-- R12: the ports keep the low bits of a pattern that is wider than the bus. -/
theorem readInputs_levels_of_legal {P : Params} {e m : Nat} (hl : P.legal e m = true) (ieee : Bool) (pat : Nat) :
    readInputs (levels P ⟨ieee, 1, e, m, pat⟩) = ⟨ieee, 1, e, m, pat % 2 ^ P.w⟩ := by
  obtain ⟨-, he, hm⟩ := Params.cfgFits_iff.1 (Params.cfgFits_of_legal hl)
  simp [readInputs, levels, Nat.mod_eq_of_lt, he, hm]

section
variable {P : Params} {e m p : Nat} {ieee : Bool} {q v : ℚ} (hl : P.legal e m = true)
include hl

theorem decodeValue_levels_eq_magnitude (S : Bool) (hp : p < (2 ^ e - 1) * 2 ^ m) :
    decodeValue (levels P ⟨ieee, 1, e, m, S.toNat * 2 ^ (e + m) + p⟩) =
      .ok (.finite ((-1) ^ S.toNat * magnitude e m ieee p)) :=
  decodeValue_eq_magnitude S hl hp
    (readInputs_levels (Laws.FitsPorts.fits_of_legal hl (sign_add_lt S (lt_of_finite hp))))

theorem decodeValue_levels_positive (hp : p < (2 ^ e - 1) * 2 ^ m) :
    decodeValue (levels P ⟨ieee, 1, e, m, p⟩) = .ok (.finite (magnitude e m ieee p)) := by
  simpa using decodeValue_levels_eq_magnitude (ieee := ieee) hl false hp

/-- R79: the last finite pattern has the largest magnitude. -/
theorem largest_magnitude (hp : p + 1 = (2 ^ e - 1) * 2 ^ m) (hv : magnitude e m ieee p = v) :
    decodeValue (levels P ⟨ieee, 1, e, m, p⟩) = .ok (.finite v) ∧
      ∀ p' q, decodeValue (levels P ⟨ieee, 1, e, m, p'⟩) = .ok (.finite q) → |q| ≤ v := by
  subst hv
  refine ⟨decodeValue_levels_positive hl (by omega), fun p' q h => ?_⟩
  obtain ⟨S, k, hk, -, rfl⟩ := exists_magnitude_of_decodeValue (readInputs_levels_of_legal hl ieee p') h
  rw [abs_signed_magnitude]
  exact (magnitude_strictMono e m ieee).monotone (by omega)

/-- R79: pattern 1, where it is finite, has the smallest magnitude that is not 0. -/
theorem smallest_magnitude (h1 : 1 < (2 ^ e - 1) * 2 ^ m) (hv : magnitude e m ieee 1 = v) :
    decodeValue (levels P ⟨ieee, 1, e, m, 1⟩) = .ok (.finite v) ∧
      ∀ p' q, decodeValue (levels P ⟨ieee, 1, e, m, p'⟩) = .ok (.finite q) → q ≠ 0 → v ≤ |q| := by
  subst hv
  refine ⟨decodeValue_levels_positive hl h1, fun p' q h hq => ?_⟩
  obtain ⟨S, k, -, -, rfl⟩ := exists_magnitude_of_decodeValue (readInputs_levels_of_legal hl ieee p') h
  rw [abs_signed_magnitude]
  have hk : k ≠ 0 := by
    rintro rfl
    exact hq (by rw [magnitude_zero, mul_zero])
  exact (magnitude_strictMono e m ieee).monotone (Nat.pos_of_ne_zero hk)

/-- R42, R79: no normalized magnitude is below that of the first normalized pattern. -/
theorem le_abs_of_isNormal {p' : Nat} (h : decodeValue (levels P ⟨ieee, 1, e, m, p'⟩) = .ok (.finite q))
    (hn : (fpUnpack P (levels P ⟨ieee, 1, e, m, p'⟩)).isNormal = true) : magnitude e m ieee (2 ^ m) ≤ |q| := by
  have hi := readInputs_levels_of_legal hl ieee p'
  obtain ⟨S, k, hk, hpat, rfl⟩ := exists_magnitude_of_decodeValue hi h
  obtain ⟨he, heP, hmP⟩ := Params.legal_iff.1 hl
  rw [hpat] at hi
  obtain ⟨-, -, -, hnormal, -⟩ := classesAreContiguousRanges P _ e m k ieee S he heP hmP (lt_of_finite hk) hi
  rw [abs_signed_magnitude]
  exact (magnitude_strictMono e m ieee).monotone (hnormal.1 hn).1

/-- R79: flipping the sign bit negates a finite value. -/
theorem exists_neg_of_finite (h : decodeValue (levels P ⟨ieee, 1, e, m, p⟩) = .ok (.finite q)) :
    ∃ p', decodeValue (levels P ⟨ieee, 1, e, m, p'⟩) = .ok (.finite (-q)) := by
  obtain ⟨S, k, hk, -, rfl⟩ := exists_magnitude_of_decodeValue (readInputs_levels_of_legal hl ieee p) h
  refine ⟨_, (decodeValue_levels_eq_magnitude hl (!S) hk).trans ?_⟩
  cases S <;> simp

end

/-- R79: the magnitude of the last finite pattern of a format with normalized values. -/
theorem magnitude_last_normal {e m : Nat} (ieee : Bool) (he : 2 ≤ e) :
    magnitude e m ieee ((2 ^ e - 2) * 2 ^ m + (2 ^ m - 1)) =
      (2 ^ (m + 1) - 1) * (2 : ℚ) ^ ((2 : Int) ^ (e - 1) - 1 - m) := by
  have hF : 2 ^ m - 1 < 2 ^ m := Nat.sub_lt (Nat.two_pow_pos m) one_pos
  have htwo : 2 < 2 ^ e := (show 2 < 2 ^ 2 by decide).trans_le (Nat.pow_le_pow_right two_pos he)
  have hE : 2 ^ e - 2 ≠ 0 := by omega
  have hsig : ((2 ^ m + (2 ^ m - 1) : ℕ) : ℚ) = 2 ^ (m + 1) - 1 := by
    rw [Nat.cast_add, Nat.cast_sub Nat.one_le_two_pow]
    push_cast
    ring
  have hdouble : 2 * 2 ^ (e - 1) = (2 : Int) ^ e := mul_pow_sub_one (by omega) 2
  have hexp : ((2 ^ e - 2 : ℕ) : Int) - bias e - m = 2 ^ (e - 1) - 1 - m := by
    rw [Nat.cast_sub htwo.le, bias]
    push_cast
    linarith
  rw [magnitude_of_fields hF, sigI_pos _ _ hE, exponentOf_pos _ _ hE, hsig, hexp]

/-- R79: the magnitude of a denormalized pattern. -/
theorem magnitude_subnormal {e m F : Nat} (ieee : Bool) (hF : F < 2 ^ m) :
    magnitude e m ieee F = F * (2 : ℚ) ^ ((if ieee then 1 - bias e else -bias e) - m) := by
  have h := magnitude_of_fields (E := 0) hF e ieee
  rwa [Nat.zero_mul, Nat.zero_add, sigI_zero, exponentOf_zero] at h

/-- R79: the magnitude of the first normalized pattern. -/
theorem magnitude_first_normal (e m : Nat) (ieee : Bool) : magnitude e m ieee (2 ^ m) = (2 : ℚ) ^ (1 - bias e) := by
  have h := magnitude_of_fields (E := 1) (Nat.two_pow_pos m) e ieee
  rw [Nat.one_mul, Nat.add_zero, sigI_pos m 0 one_ne_zero, exponentOf_pos e ieee one_ne_zero] at h
  rw [h, Nat.add_zero, Nat.cast_pow, Nat.cast_ofNat, ← zpow_natCast, ← zpow_add₀ two_ne_zero]
  congr 1
  push_cast
  ring

/-- R79: with an exponent field of two bits or more the first normalized pattern is finite. -/
theorem two_pow_lt_of_two_le {e : Nat} (m : Nat) (he : 2 ≤ e) : 2 ^ m < (2 ^ e - 1) * 2 ^ m := by
  have hpow : 2 ^ 2 ≤ 2 ^ e := Nat.pow_le_pow_right two_pos he
  exact (Nat.lt_mul_iff_one_lt_left (Nat.two_pow_pos m)).2 (by omega)

/-- Settles O41: each row of R79's table is the magnitude of the last or of the first finite pattern of its kind. -/
theorem magnitudeBounds : Obligations.MagnitudeBounds := by
  intro P e m ieee he heP hmP
  have hl : P.legal e m = true := Params.legal_iff.2 ⟨he, heP, hmP⟩
  dsimp only
  refine ⟨fun h2 => ?_, ?_, ?_, fun hm => ?_, ?_, fun h2 => ⟨?_, fun p' q h hn => ?_⟩, ?_,
    fun p' q => exists_neg_of_finite hl⟩
  · refine largest_magnitude hl ?_ (magnitude_last_normal ieee h2)
    have hpow : 2 ^ 2 ≤ 2 ^ e := Nat.pow_le_pow_right two_pos h2
    have hM := Nat.two_pow_pos m
    have hsucc : 2 ^ e - 1 = 2 ^ e - 2 + 1 := by omega
    rw [hsucc, Nat.add_mul]
    omega
  · rintro rfl -
    have hM := Nat.two_pow_pos m
    refine largest_magnitude hl (by omega) ?_
    rw [magnitude_subnormal ieee (by omega)]
    push_cast [Nat.one_le_two_pow]
    rfl
  · rintro rfl rfl
    exact largest_magnitude hl rfl (magnitude_zero _ _ _)
  · have hF : 1 < 2 ^ m := Nat.one_lt_two_pow (by omega)
    refine smallest_magnitude hl (hF.trans_le (Nat.le_mul_of_pos_left _ (allOnesExp_pos he))) ?_
    rw [magnitude_subnormal ieee hF, Nat.cast_one, one_mul]
    rfl
  · rintro rfl h2
    exact smallest_magnitude hl (two_pow_lt_of_two_le 0 h2) (magnitude_first_normal e 0 ieee)
  · rw [← bias, ← magnitude_first_normal e m ieee]
    exact decodeValue_levels_positive hl (two_pow_lt_of_two_le m h2)
  · rw [← bias, ← magnitude_first_normal e m ieee]
    exact le_abs_of_isNormal hl h hn
  · rintro rfl rfl p' q h hq
    obtain ⟨-, hle⟩ := largest_magnitude hl rfl (magnitude_zero 1 0 ieee)
    exact hq.ne' (abs_nonpos_iff.1 (hle p' q h))

end Sys2Proof.Machine
end

section
/-! The exceptions family (60_exceptions.md): the error rows complete with their code and nothing else, no row stops
on an error outcome, and an error leaves no trace in the next transaction. -/

namespace Sys2Proof.Machine

/-! ### The error rows (R81, R82) -/

/-- Settles O20: INVALID_FORMAT is well-formed where its widths spell no format, and there the block shows its code,
whatever `pat` holds. -/
theorem invalidFormatRowShowsOnlyItsCode : Obligations.InvalidFormatRowShowsOnlyItsCode := by
  intro st s e m ieee pat hs he hm hp hillegal hwait
  have hcfg : st.params.cfgFits s e m = true := Params.cfgFits_iff.2 ⟨hs, he, hm⟩
  have hpat : st.params.patFits pat = true := Params.patFits_iff.2 hp
  have hill : st.params.illegal s e m = true :=
    illegal_iff_not_formatValid.2 (formatValid_eq_false_iff.2 hillegal)
  have hw : (Instr.invalidFormat s e m ieee pat).wf st.params = true := by simp [Instr.wf, hcfg, hpat, hill]
  refine Completes.of_fpUnpack hw (by simp [Instr.tag]) hwait ?_
  rw [fpUnpack_invalidFormatRow hw]
  exact errorOutputs_shows _ .invalidFormat

/-- Settles O21: INVALID_PATTERN is well-formed where a legal format meets a pattern of `2 ^ T` or more, and there the
block shows its code. -/
theorem invalidPatternRowShowsOnlyItsCode : Obligations.InvalidPatternRowShowsOnlyItsCode := by
  intro s e m ieee pat he heP hmP hstray hp hwait
  have hl : s.params.legal e m = true := Params.legal_iff.2 ⟨he, heP, hmP⟩
  have hpat : s.params.patFits pat = true := Params.patFits_iff.2 hp
  have hw : (Instr.invalidPattern e m ieee pat).wf s.params = true := by simp [Instr.wf, hl, hpat, hstray]
  refine Completes.of_fpUnpack hw (by simp [Instr.tag]) hwait ?_
  rw [fpUnpack_invalidPatternRow hw]
  exact errorOutputs_shows _ .invalidPattern

/-! ### What stops a row (R80, R84, R90) -/

/-- Log entry 6: every ill-formed row is refused. -/
theorem exec_illFormed {s : State} {i : Instr} (hw : i.wf s.params = false) : exec i s = .refused .illFormed := by
  by_cases ht : i.tag = 1
  · rw [exec_eq_select s ht]
    simp [State.select, hw]
  · rw [exec_decodeRow s ht]
    simp [hw]

/-- R90: a well-formed row answers a next state, or it is a decode row that faults because the host has not waited. -/
theorem exec_wellFormed_cases {s : State} {i : Instr} (hw : i.wf s.params = true) :
    (∃ t, exec i s = .next t) ∨ (i.tag ≠ 1 ∧ ¬ HostWaits s ∧ exec i s = .fault .reservedErr) := by
  by_cases hwait : HostWaits s
  · obtain ⟨b, hexec, -⟩ := everyTransactionCompletes s i hw hwait
    exact .inl ⟨_, hexec⟩
  · by_cases ht : i.tag = 1
    · exact .inl ⟨_, exec_formatSelection ht hw⟩
    · rw [exec_decodeRow s ht, if_pos hw]
      split
      · exact .inr ⟨ht, hwait, rfl⟩
      · exact .inl ⟨_, rfl⟩

/-- Settles O47: an ill-formed row is refused, and a well-formed one stops only at an early sample. -/
theorem rowsStopOnlyForEarlySamplesAndIllFormedRows : Obligations.RowsStopOnlyForEarlySamplesAndIllFormedRows := by
  intro s i
  cases hw : i.wf s.params with
  | false => simp [exec_illFormed hw]
  | true =>
    obtain ⟨t, hexec⟩ | ⟨ht, hwait, hexec⟩ := exec_wellFormed_cases hw
    · simp [hexec]
    · simp [hexec, ht, hwait]

/-! ### After an error (R25, R86) -/

/-- R95: no transaction changes `T_PD` or how long the host holds its inputs, so a host that waits goes on waiting. -/
theorem exec_keeps_hostWaits {s t : State} {i : Instr} (hwait : HostWaits s) (h : exec i s = .next t) :
    HostWaits t := by
  obtain ⟨b, rfl, htPd, -, hhold, -⟩ := transactionsLeaveTheRest s t i h
  rw [HostWaits, State.withBlock_block, htPd, hhold]
  exact hwait

/-- Settles O51: the host waits after the error as it did before, and then its sample depends on the inputs alone. -/
theorem earlierErrorLeavesNoTrace : Obligations.EarlierErrorLeavesNoTrace := by
  intro s bad i b hw ht hwait _ hbad _
  have hwait' : HostWaits (s.withBlock b) := exec_keeps_hostWaits hwait hbad
  obtain ⟨c, d, x, hc, hd, hsampC, hsampD, -, hout⟩ :=
    settledSamplesDependOnInputsAlone s.params b s.block i hw ht hwait' hwait
  exact ⟨c, d, x, hc, hd, hsampC, hsampD, hout⟩

end Sys2Proof.Machine
end

section
/-! The reset and hazards family (70_reset_and_hazards.md): power-up and idle steps, the settling window of a decode
row, and the end state of a program. -/

namespace Sys2Proof.Machine

/-! ### What a step runs (R95, R99) -/

theorem step_of_pending {s : State} {t : Transaction} {rest : List Transaction} {i : Instr}
    (hp : s.block.pending = t :: rest) (hd : decode s.params t.word = .ok i) :
    step s = exec i (s.withBlock { s.block with pending := rest, hold := t.hold }) := by
  rcases step_cases s with ⟨h, -⟩ | ⟨t', rest', h, ⟨i', hi, hstep⟩ | ⟨why, hwhy, -⟩⟩ <;>
    rw [hp] at h <;> cases h
  · rw [hd] at hi
    cases hi
    exact hstep
  · rw [hd] at hwhy
    cases hwhy

theorem step_of_idle {s : State} (hp : s.block.pending = []) : step s = .next (s.withBlock s.block.idle) := by
  rcases step_cases s with ⟨-, h⟩ | ⟨t, rest, h, -⟩
  · exact h
  · rw [hp] at h
    cases h

/-- Settles O7: the word that `withFetchWord` places is the next pending one, and beginning it leaves the host's own
list. -/
theorem stepRunsTheDecodedTransaction : Obligations.StepRunsTheDecodedTransaction :=
  ⟨fun _ _ _ _ hp hd => step_of_pending hp hd,
    fun s nbits w _ hd =>
      step_of_pending (s := s.withFetchWord nbits w) (t := ⟨w % 2 ^ nbits, s.block.tPd⟩) rfl hd⟩

/-! ### Power-up and idle steps (R92, R94) -/

/-- Settles O43: at power-up nothing has been driven and nothing sampled. -/
theorem invariantHoldsAtReset : Obligations.InvariantHoldsAtReset where
  outputs_settled h := by cases h
  samples_settled x hx := by cases hx
  samples_err x hx := by cases hx

namespace Block

variable {P : Params} (b : Block P)

/-- R92, 93 I11: a floating bit takes a new level, which starts the settling window again. -/
theorem redraw_of_floating (h : b.floating ≠ allDriven P) :
    b.redraw = { b with
      inputs := mergeFloating b.floating b.inputs (Config.freeInputs P b.draws)
      stable := 0
      draws := b.draws + 1 } :=
  if_neg h

@[simp] theorem idle_tPd : b.idle.tPd = b.tPd := by simp [idle]
@[simp] theorem idle_inputs : b.idle.inputs = b.redraw.inputs := by simp [idle]
@[simp] theorem idle_floating : b.idle.floating = b.floating := by simp [idle]
@[simp] theorem idle_everDriven : b.idle.everDriven = b.everDriven := by simp [idle]
@[simp] theorem idle_stable : b.idle.stable = b.redraw.stable + 1 := by simp [idle]
@[simp] theorem idle_pending : b.idle.pending = b.pending := by simp [idle]
@[simp] theorem idle_hold : b.idle.hold = b.hold := by simp [idle]
@[simp] theorem idle_samples : b.idle.samples = b.samples := by simp [idle]

theorem idle_outputs_of_settled (h : b.idle.settled = true) : b.idle.outputs = fpUnpack P b.idle.inputs := by
  rw [idle_inputs]
  exact b.redraw.settleFor_outputs_of_settled _ 1 h

/-- R94: inside the window an idle step shows the draw that follows the levels of the floating bits. -/
theorem idle_outputs_of_unsettled (h : b.idle.settled = false) :
    b.idle.outputs = Config.freeOutputs P b.redraw.draws ∧ b.idle.draws = b.redraw.draws + 1 :=
  ⟨b.redraw.settleFor_outputs_of_unsettled _ 1 h,
    (b.redraw.settleFor_draws _ 1).trans (if_neg (Bool.eq_false_iff.1 h))⟩

theorem settled_eq_true_iff : b.settled = true ↔ b.everDriven = true ∧ b.tPd ≤ b.stable := by
  rw [settled, Bool.and_eq_true, decide_eq_true_eq]

theorem settled_eq_false_iff : b.settled = false ↔ b.everDriven = false ∨ b.stable < b.tPd := by
  rw [settled, Bool.and_eq_false_iff, decide_eq_false_iff_not, Nat.not_le]

end Block

/-- Settles O9: whether a bit floats decides the levels and the window, and whether the window is over the outputs. -/
theorem idleStepHoldsTheInputs : Obligations.IdleStepHoldsTheInputs := by
  intro s hp
  refine ⟨s.block.idle, step_of_idle hp, by simp, by simp [hp], by simp, by simp, by simp, fun hdriven => ?_,
    fun hfloat => ?_, by simp, fun hd hstable => ?_, fun hwindow => ?_⟩
  · simp [s.block.redraw_of_driven hdriven]
  · simp [s.block.redraw_of_floating hfloat]
  · exact s.block.idle_outputs_of_settled (s.block.idle.settled_eq_true_iff.2 ⟨hd, hstable⟩)
  · obtain ⟨hout, hdraws⟩ := s.block.idle_outputs_of_unsettled (s.block.idle.settled_eq_false_iff.2 hwindow)
    exact ⟨_, s.block.le_redraw_draws, hdraws ▸ Nat.lt_succ_self _, hout⟩

/-! ### The settling window of a decode row (R94) -/

namespace Block

variable {P : Params} (b : Block P) (i : Inputs P)

theorem afterDecode_settled_iff : (b.afterDecode i).settled = true ↔ b.tPd ≤ b.stableAfter i := by
  simp [settled_eq_true_iff]

theorem afterDecode_unsettled_iff : (b.afterDecode i).settled = false ↔ b.stableAfter i < b.tPd := by
  simp [settled_eq_false_iff]

theorem afterDecode_of_unsettled (h : (b.afterDecode i).settled = false) :
    (b.afterDecode i).outputs = Config.freeOutputs P b.draws ∧ (b.afterDecode i).draws = b.draws + 1 :=
  ⟨(b.drive i).settleFor_outputs_of_unsettled _ _ h,
    ((b.drive i).settleFor_draws (fpUnpack P i) b.hold).trans (if_neg (Bool.eq_false_iff.1 h))⟩

/-- R94: levels that stand on the ports already go on counting from their last change. -/
theorem stableAfter_of_standsAt (h : b.standsAt i = true) : b.stableAfter i = b.stable + b.hold := by
  rw [stableAfter, if_pos h]

/-- R99: what a decode row adds to the end state. -/
theorem afterDecode_endState :
    (b.afterDecode i).endState = b.endState ++ if (b.afterDecode i).settled then [fpUnpack P i] else [] := by
  rw [b.endState_append (b.afterDecode_samples i)]
  cases h : (b.afterDecode i).settled with
  | false => rfl
  | true => rw [b.afterDecode_outputs_of_settled i h]

theorem afterDecode_endState_of_unsettled (h : (b.afterDecode i).settled = false) :
    (b.afterDecode i).endState = b.endState := by
  simp [afterDecode_endState, h]

@[simp] theorem formatTransaction_endState : (b.formatTransaction i).endState = b.endState := by
  simp [formatTransaction]

end Block

/-- R94, R99: the state after a decode row whose window is over, however long the host held its inputs. -/
theorem withBlock_afterDecode_of_settled {s : State} {i : Inputs s.params}
    (h : (s.block.afterDecode i).settled = true) :
    s.withBlock (s.block.afterDecode i) = s.sampled i (fpUnpack s.params i) := by
  have hwaited : (s.block.drive i).settleFor s.block.hold (fpUnpack s.params i) =
      { s.block.drive i with stable := s.block.stableAfter i, outputs := fpUnpack s.params i } :=
    if_pos ⟨rfl, (s.block.afterDecode_settled_iff i).1 h⟩
  have hset : ((s.block.drive i).settleFor s.block.hold (fpUnpack s.params i)).settled = true := h
  rw [hwaited] at hset
  rw [Block.afterDecode, hwaited, hset]
  rfl

/-- R40: the ports hold one input set only. -/
theorem eq_inputsOf {P : Params} {i : Instr} {inp : Inputs P} (h : readInputs inp = i.inWord) :
    inp = inputsOf P i := by
  rw [inputsOf, ← h, levels_readInputs]

/-- Settles O48: inside the window the ports show the next draw, and the sample's mark keeps it out of the end state. -/
theorem earlySampleIsAFreeDraw : Obligations.EarlySampleIsAFreeDraw := by
  intro s i inp hw ht hread hearly
  have hset := (s.block.afterDecode_unsettled_iff inp).2 hearly
  obtain ⟨hout, hdraws⟩ := s.block.afterDecode_of_unsettled inp hset
  have hexec := exec_decodeRow s ht
  rw [if_pos hw, ← eq_inputsOf hread, hout] at hexec
  refine ⟨fun herr => hexec.trans (if_pos herr), fun herr => ⟨_, hexec.trans (if_neg herr), by simp, hout, hdraws,
    by simp, ?_, s.block.afterDecode_endState_of_unsettled inp hset⟩⟩
  rw [Block.afterDecode_samples, hout, hset]

/-- Settles O49: the window of levels that stand settled is over before the host holds them. -/
theorem sameInputsNeedNoFurtherWait : Obligations.SameInputsNeedNoFurtherWait := by
  intro s i hw ht hfloat hread hsettled
  obtain ⟨hdriven, hstable⟩ := s.block.settled_eq_true_iff.1 hsettled
  have hstands : s.block.standsAt s.block.inputs = true := by simp [Block.standsAt, hdriven, hfloat]
  have hset : (s.block.afterDecode s.block.inputs).settled = true := by
    rw [Block.afterDecode_settled_iff, s.block.stableAfter_of_standsAt _ hstands]
    exact Nat.le_add_right_of_le hstable
  have herr : ¬ (s.block.afterDecode s.block.inputs).outputs.err = 0b11#2 := by
    rw [s.block.afterDecode_outputs_of_settled _ hset]
    exact fpUnpack_err_ne_reserved _
  rw [exec_decodeRow s ht, if_pos hw, ← eq_inputsOf hread, if_neg herr, withBlock_afterDecode_of_settled hset]

/-! ### The end state of a program (R99) -/

/-- Settles O52: the block after each kind of transaction, and for a decode row whether its window is over. -/
theorem endStateGainsOnlySettledSamples : Obligations.EndStateGainsOnlySettledSamples := by
  intro s t i h
  obtain ⟨-, ⟨ht, rfl⟩ | ⟨ht, -, rfl⟩⟩ := exec_next_cases h
  · exact ⟨_, rfl, fun _ => by simp, fun h1 => absurd ht h1, fun h1 => absurd ht h1⟩
  · refine ⟨_, rfl, fun h1 => absurd h1 ht, fun _ => s.block.afterDecode_endState_of_unsettled _, fun _ hset => ?_⟩
    rw [Block.afterDecode_endState, if_pos hset]

/-- The sample of a row for which the host waits. -/
def settledSample (P : Params) (i : Instr) : Sample P :=
  { inputs := inputsOf P i, outputs := fpUnpack P (inputsOf P i), settled := true }

/-- R95, R99: the step of a well-formed decode row for which the host waits. -/
theorem step_decodeRow_of_waits {P : Params} {b : Block P} {i : Instr} {hold : Nat} {rest : List Transaction}
    (hp : b.pending = ⟨encode P i, hold⟩ :: rest) (hw : i.wf P = true) (ht : i.tag ≠ 1) (hwait : b.tPd ≤ hold) :
    ∃ c : Block P, step ⟨P, b⟩ = .next ⟨P, c⟩ ∧ c.tPd = b.tPd ∧ c.pending = rest ∧
      c.samples = b.samples ++ [settledSample P i] := by
  have hstep := step_of_pending (s := ⟨P, b⟩) hp (decodeOfEncodeIsTheTransaction P i hw)
  obtain ⟨hexec, -, hsamples⟩ :=
    exec_decodeRow_of_waits (b := { b with pending := rest, hold := hold }) hw ht hwait
  exact ⟨_, hstep.trans hexec, by simp, by simp, hsamples⟩

theorem run_succ_of_step {M : Host.Core} {s t : M.State} (k : Nat) (h : M.step s = .next t) :
    M.run (k + 1) s = M.run k t := by
  rw [Host.Core.run, h]

/-- R95, R99: a program of decode rows for which the host waits runs to its end and adds one settled sample for each
row. -/
theorem run_decodeRows_of_waits {P : Params} (is : List Instr) : ∀ (b : Block P) (holds : List Nat),
    b.pending = List.zipWith (fun i h => { word := encode P i, hold := h }) is holds →
    is.length = holds.length → (∀ i ∈ is, i.wf P = true ∧ i.tag ≠ 1) → (∀ h ∈ holds, b.tPd ≤ h) →
    ∃ c : Block P, Sys2Proof.core.run is.length ⟨P, b⟩ = .next ⟨P, c⟩ ∧ c.pending = [] ∧
      c.samples = b.samples ++ is.map (settledSample P) := by
  induction is with
  | nil =>
    intro b holds hp _ _ _
    exact ⟨b, rfl, hp, (List.append_nil _).symm⟩
  | cons i is ih =>
    intro b holds hp hlen hrows hwaits
    obtain - | ⟨h, holds⟩ := holds
    · cases hlen
    obtain ⟨⟨hw, ht⟩, hrows⟩ := List.forall_mem_cons.1 hrows
    obtain ⟨hwait, hwaits⟩ := List.forall_mem_cons.1 hwaits
    obtain ⟨c, hstep, htPd, hpend, hsamples⟩ := step_decodeRow_of_waits hp hw ht hwait
    obtain ⟨d, hrun, hdone, hmore⟩ := ih c holds hpend (Nat.succ.inj hlen) hrows (htPd ▸ hwaits)
    refine ⟨d, (run_succ_of_step (M := Sys2Proof.core) is.length hstep).trans hrun, hdone, ?_⟩
    rw [hmore, hsamples, List.append_assoc, List.map_cons, List.singleton_append]

/-- R99: settled samples join the end state in their order. -/
theorem Block.endState_append_settledSamples {P : Params} {b c : Block P} {is : List Instr}
    (h : c.samples = b.samples ++ is.map (settledSample P)) :
    c.endState = b.endState ++ is.map (fun i => fpUnpack P (inputsOf P i)) := by
  have hall : (is.map (settledSample P)).filter (·.settled) = is.map (settledSample P) :=
    List.filter_eq_self.2 (by simp [settledSample])
  rw [endState, h, List.filter_append, List.map_append, hall, List.map_map]
  rfl

/-- Settles O53: by induction on the rows, each of which takes one step and adds its settled sample. -/
theorem runEndsInTheListOfSamples : Obligations.RunEndsInTheListOfSamples := by
  intro s is holds hp hlen hrows hwaits
  obtain ⟨b, hrun, hdone, hsamples⟩ := run_decodeRows_of_waits is s.block holds hp hlen hrows hwaits
  exact ⟨b, hrun, hdone, hsamples, Block.endState_append_settledSamples hsamples⟩

end Sys2Proof.Machine
end
